-- ==== Sys2Proof/Word.lean ====
section
/-! DEFINITION. The word types of go-bn384 CORE: limbs, elements, port addresses, command words. -/

namespace Sys2Proof

/-- A limb: 64 bits, unsigned (R2). It is also the width of every port datum (R30, R33). -/
abbrev Limb := BitVec 64

/-- A word address of the register port: 8 bits (R6, R30). -/
abbrev Addr := BitVec 8

/-- A command word: 32 bits (R45). -/
abbrev CmdWord := BitVec 32

/-- A field element: exactly six limbs, limb 0 least significant (R3, R11). -/
abbrev Elem := Vector Limb 6

/-- The multiplier's accumulator: thirteen limbs, `A[0]` to `A[12]` (R5). -/
abbrev Accumulator := Vector Limb 13

/-- `M`, the all-ones (saturated) limb `2^64 - 1` (`00_scope.md` section 4). -/
def saturated : Limb := BitVec.allOnes 64

end Sys2Proof
end

