-- ==== Sys2Proof/Syntax.lean ====
section
/-! DEFINITION. The eight commands (R48), one constructor per row of `spec/opcode_table.json`. -/

namespace Sys2Proof

/-- The index of an element register; all eight values are valid (R10, R50). -/
abbrev EReg := Fin 8

/-- The commands. Operands stand in the spec's order `rd, rs1, rs2, rm`, the unused ones left out (R54). -/
inductive Instr where
  /-- `CMP128`: order (`AH`,`AL`) against (`BH`,`BL`) into `STATUS.CMP` (R65). -/
  | cmp128
  /-- `ADD64`: the 128-bit sum of the two pairs into (`RH`,`RL`) (R67). -/
  | add64
  /-- `ADD rd, rs1, rs2`: 384-bit addition (R76). -/
  | add (rd rs1 rs2 : EReg)
  /-- `SUB rd, rs1, rs2`: 384-bit subtraction with borrow (R78). -/
  | sub (rd rs1 rs2 : EReg)
  /-- `LTE rs1, rs2`: the componentwise ordering predicate (R80). -/
  | lte (rs1 rs2 : EReg)
  /-- `ADDMOD rd, rs1, rs2, rm`: addition with one conditional subtraction (R86). -/
  | addmod (rd rs1 rs2 rm : EReg)
  /-- `SUBMOD rd, rs1, rs2, rm`: subtraction with one conditional addition (R88). -/
  | submod (rd rs1 rs2 rm : EReg)
  /-- `MULMOD rd, rs1, rs2, rm`: Montgomery multiplication (R100). -/
  | mulmod (rd rs1 rs2 rm : EReg)
  deriving DecidableEq, Repr

/-- The mnemonic of a command, as the opcode table spells it (R48, R54). -/
def Instr.mnemonic : Instr → String
  | .cmp128 => "CMP128"
  | .add64 => "ADD64"
  | .add _ _ _ => "ADD"
  | .sub _ _ _ => "SUB"
  | .lte _ _ => "LTE"
  | .addmod _ _ _ _ => "ADDMOD"
  | .submod _ _ _ _ => "SUBMOD"
  | .mulmod _ _ _ _ => "MULMOD"

/-- The element registers a command reads as sources (R47, R53). -/
def Instr.sources : Instr → List EReg
  | .cmp128 => []
  | .add64 => []
  | .add _ rs1 rs2 => [rs1, rs2]
  | .sub _ rs1 rs2 => [rs1, rs2]
  | .lte rs1 rs2 => [rs1, rs2]
  | .addmod _ rs1 rs2 rm => [rs1, rs2, rm]
  | .submod _ rs1 rs2 rm => [rs1, rs2, rm]
  | .mulmod _ rs1 rs2 rm => [rs1, rs2, rm]

/-- The element register a command writes, if any (R10, R47). -/
def Instr.dest : Instr → Option EReg
  | .cmp128 => none
  | .add64 => none
  | .add rd _ _ => some rd
  | .sub rd _ _ => some rd
  | .lte _ _ => none
  | .addmod rd _ _ _ => some rd
  | .submod rd _ _ _ => some rd
  | .mulmod rd _ _ _ => some rd

/-- The same command with another destination register (the law of R123 compares the two). -/
def Instr.withDest (rd' : EReg) : Instr → Instr
  | .cmp128 => .cmp128
  | .add64 => .add64
  | .add _ rs1 rs2 => .add rd' rs1 rs2
  | .sub _ rs1 rs2 => .sub rd' rs1 rs2
  | .lte rs1 rs2 => .lte rs1 rs2
  | .addmod _ rs1 rs2 rm => .addmod rd' rs1 rs2 rm
  | .submod _ rs1 rs2 rm => .submod rd' rs1 rs2 rm
  | .mulmod _ rs1 rs2 rm => .mulmod rd' rs1 rs2 rm

end Sys2Proof
end

