-- ==== Sys2Proof/WellFormed.lean ====
section
/-! DEFINITION. Which data written to `CMD` are command words: the formats of R47 and the opcode table
of R48, as masks. It is written apart from the decoder, which follows R51. Every term of `Instr` is
well formed, since each register operand is a `Fin 8` (R50), so the check is on the words. -/

namespace Sys2Proof

/-- The four command formats (R47). -/
inductive Format where
  | Z | R2 | R3 | R4
  deriving DecidableEq, Repr

/-- The bits that are 0 in every command word of the format: the `zero` field and the register fields
the format does not use (R46, R47). -/
def Format.mustBeZero : Format → CmdWord
  | .Z => 0xFFFFFFF0
  | .R2 => 0xFFFFE070
  | .R3 => 0xFFFFE000
  | .R4 => 0xFFFF0000

/-- One row of the opcode map (R48). -/
structure OpcodeRow where
  mnemonic : String
  format : Format
  matchBits : CmdWord
  mask : CmdWord
  deriving DecidableEq, Repr

/-- The opcode map (R48; `spec/opcode_table.json`). -/
def opcodeTable : List OpcodeRow :=
  [ ⟨"CMP128", .Z, 0x00000001, 0xFFFFFFFF⟩,
    ⟨"ADD64", .Z, 0x00000002, 0xFFFFFFFF⟩,
    ⟨"ADD", .R3, 0x00000003, 0xFFFFE00F⟩,
    ⟨"SUB", .R3, 0x00000004, 0xFFFFE00F⟩,
    ⟨"LTE", .R2, 0x00000005, 0xFFFFE07F⟩,
    ⟨"ADDMOD", .R4, 0x00000006, 0xFFFF000F⟩,
    ⟨"SUBMOD", .R4, 0x00000007, 0xFFFF000F⟩,
    ⟨"MULMOD", .R4, 0x00000008, 0xFFFF000F⟩ ]

/-- "A word `c` is the command of a row exactly when `(c AND mask) = match`" (R48). -/
def OpcodeRow.hits (row : OpcodeRow) (c : CmdWord) : Bool :=
  decide (c &&& row.mask = row.matchBits)

/-- A datum for `CMD` is well formed when its bits 63:32 are zero (R45) and its low word is the command
of some row (R48). -/
def datumWellFormed (v : Limb) : Bool :=
  decide (v &&& 0xFFFFFFFF00000000 = 0) && opcodeTable.any (fun row => row.hits (v.setWidth 32))

end Sys2Proof
end

