-- ==== Sys2Proof/Decode.lean ====
section
/-! DEFINITION. The decoder of R51, total on every 64-bit datum and rejecting by name, and the encoder of
R46. -/

namespace Sys2Proof

/-- Why a datum written to `CMD` is no command (R52). The block does not tell the reasons apart (R132,
R135); the names are for the reader. -/
inductive Malformed where
  /-- a non-zero bit in 63:32 of the datum (R45) -/
  | upperDatum
  /-- a non-zero bit in 31:16 (R46) -/
  | zeroField
  /-- opcode `0x0` or `0x9` to `0xF` (R48) -/
  | reservedOpcode
  /-- a register field the format does not use is non-zero (R47) -/
  | unusedField
  deriving DecidableEq, Repr

/-- What the decoder answers (R51). -/
inductive Decoded where
  | command (i : Instr)
  | malformed (why : Malformed)
  deriving DecidableEq, Repr

/-- The opcode, bits 3:0 (R46). -/
def opcodeField (c : CmdWord) : Nat := (c.extractLsb' 0 4).toNat

/-- The 3-bit register field whose lowest bit is `lo`; value `k` names `E[k]` (R46, R50). -/
def regField (c : CmdWord) (lo : Nat) : EReg :=
  ⟨(c.extractLsb' lo 3).toNat, (c.extractLsb' lo 3).isLt⟩

/-- The `rd` field, bits 6:4 (R46). -/
def rdField (c : CmdWord) : EReg := regField c 4

/-- The `rs1` field, bits 9:7 (R46). -/
def rs1Field (c : CmdWord) : EReg := regField c 7

/-- The `rs2` field, bits 12:10 (R46). -/
def rs2Field (c : CmdWord) : EReg := regField c 10

/-- The `rm` field, bits 15:13 (R46). -/
def rmField (c : CmdWord) : EReg := regField c 13

/-- The command the fields of a word name, once bits 31:16 are known to be zero (R51, the `case`). -/
def decodeFields (op : Nat) (rd rs1 rs2 rm : EReg) : Decoded :=
  match op with
  | 0x1 => if rd = 0 ∧ rs1 = 0 ∧ rs2 = 0 ∧ rm = 0 then .command .cmp128 else .malformed .unusedField
  | 0x2 => if rd = 0 ∧ rs1 = 0 ∧ rs2 = 0 ∧ rm = 0 then .command .add64 else .malformed .unusedField
  | 0x3 => if rm = 0 then .command (.add rd rs1 rs2) else .malformed .unusedField
  | 0x4 => if rm = 0 then .command (.sub rd rs1 rs2) else .malformed .unusedField
  | 0x5 => if rd = 0 ∧ rm = 0 then .command (.lte rs1 rs2) else .malformed .unusedField
  | 0x6 => .command (.addmod rd rs1 rs2 rm)
  | 0x7 => .command (.submod rd rs1 rs2 rm)
  | 0x8 => .command (.mulmod rd rs1 rs2 rm)
  | _ => .malformed .reservedOpcode

/-- Decoding of a command word: bits 31:16 must be zero (R46, R51). -/
def decodeWord (c : CmdWord) : Decoded :=
  if c.extractLsb' 16 16 ≠ 0 then .malformed .zeroField
  else decodeFields (opcodeField c) (rdField c) (rs1Field c) (rs2Field c) (rmField c)

/-- Decoding of the datum of a `PortWrite` to `CMD` (R45, R51). -/
def decode (v : Limb) : Decoded :=
  if v.extractLsb' 32 32 ≠ 0 then .malformed .upperDatum
  else decodeWord (v.extractLsb' 0 32)

/-- `c = opcode + rd·2^4 + rs1·2^7 + rs2·2^10 + rm·2^13` (R46). -/
def packWord (op : Nat) (rd rs1 rs2 rm : EReg) : CmdWord :=
  BitVec.ofNat 32 (op + rd.val * 2 ^ 4 + rs1.val * 2 ^ 7 + rs2.val * 2 ^ 10 + rm.val * 2 ^ 13)

/-- The command word of a command; unused fields are 0 (R46 to R48). -/
def encode : Instr → CmdWord
  | .cmp128 => packWord 0x1 0 0 0 0
  | .add64 => packWord 0x2 0 0 0 0
  | .add rd rs1 rs2 => packWord 0x3 rd rs1 rs2 0
  | .sub rd rs1 rs2 => packWord 0x4 rd rs1 rs2 0
  | .lte rs1 rs2 => packWord 0x5 0 rs1 rs2 0
  | .addmod rd rs1 rs2 rm => packWord 0x6 rd rs1 rs2 rm
  | .submod rd rs1 rs2 rm => packWord 0x7 rd rs1 rs2 rm
  | .mulmod rd rs1 rs2 rm => packWord 0x8 rd rs1 rs2 rm

/-- The datum that carries a command word to `CMD`: the word in bits 31:0, zeros above (R45, R54). -/
def wordDatum (c : CmdWord) : Limb := c.setWidth 64

/-- The datum that issues a command (R54). -/
def encodeDatum (i : Instr) : Limb := wordDatum (encode i)

/-- The assembler name of an element register, `e0` to `e7` (R54). -/
def eregName (r : EReg) : String :=
  match r with
  | 0 => "e0"
  | 1 => "e1"
  | 2 => "e2"
  | 3 => "e3"
  | 4 => "e4"
  | 5 => "e5"
  | 6 => "e6"
  | 7 => "e7"

/-- A command line: mnemonic and operands in the order `rd, rs1, rs2, rm`, unused ones left out (R54). -/
def Instr.asm (i : Instr) : String :=
  let ops := i.dest.toList ++ i.sources
  if ops.isEmpty then i.mnemonic else i.mnemonic ++ " " ++ ", ".intercalate (ops.map eregName)

/-- The datum with the low `nbits` bits of `w` and zeros above them, as the port carries it. -/
def tableDatum (nbits w : Nat) : Limb := BitVec.ofNat 64 (w % 2 ^ nbits)

/-- The instruction the decoder reads from an opcode-table word of `nbits` bits. The port carries 64
bits (R33), so a longer number with a bit above them is no datum at all. -/
def decodeTableWord (nbits w : Nat) : Option Instr :=
  if w % 2 ^ nbits < 2 ^ 64 then
    match decode (tableDatum nbits w) with
    | .command i => some i
    | .malformed _ => none
  else none

end Sys2Proof
end

