-- ==== Sys2Proof/Config.lean ====
section
/-! DEFINITION. What the spec leaves open: the free words a `Reset` leaves behind, and the value this
model names for the data words of `State.reset`. `LATENCY` (R6, R152) is not represented: X2 of
`93_implementation_defined.md` forbids it. -/

namespace Sys2Proof

/-- `freeWord n w`: the `n`-th unspecified word that `Reset` events leave in a data register, one that
held `w` before, since "`Reset` may or may not preserve what a word held" (R147, X1). It has no body:
nothing can be proved about its values (assumption 2). -/
opaque Config.freeWord : Nat → Limb → Limb

/-- The value of each of the 55 data words in `State.reset` (DESIGN CHOICE, assumption 1: R147 gives
none, and no statement rests on it). -/
def Config.resetDataWord : Limb := 0

end Sys2Proof
end

