-- ==== Sys2Proof/Machine/State.lean ====
section
/-! DEFINITION. The state of one block instance and the host at its port, and the ways a step can stop. -/

namespace Sys2Proof.Machine

/-- A port transaction (R30). -/
inductive Transaction where
  /-- `PortRead(a)` (R39) -/
  | read (a : Addr)
  /-- `PortWrite(a, v)` (R40) -/
  | write (a : Addr) (v : Limb)
  deriving DecidableEq, Repr

/-- An event at the boundary of the block: these are all there are (R30, R145). -/
inductive HostEvent where
  /-- a transaction of the block's one host (R38) -/
  | transact (t : Transaction)
  /-- `Reset`, applied between two transactions (R145) -/
  | reset
  /-- a transaction of a second host on the same instance, which a model must refuse (R38, U12) -/
  | foreign (t : Transaction)
  deriving DecidableEq, Repr

/-- What a port address names (R31, R32). -/
inductive PortReg where
  /-- limb `l` of element register `r` -/
  | elem (r : EReg) (l : Fin 6)
  | inv | ah | al | bh | bl | rh | rl | status | cmd
  | unmapped
  deriving DecidableEq, Repr

/-- Access from the port (R32). -/
inductive Access where
  | readWrite | readOnly | writeOnly | none
  deriving DecidableEq, Repr

/-- The four fields of `STATUS`; bits 63:5 of the register hold nothing and read as 0 (R17). -/
structure Status where
  /-- final borrow of the last `SUB` (R18) -/
  borrow : Bool
  /-- result of the last `LTE` (R20) -/
  lte : Bool
  /-- result of the last `CMP128`, two's complement (R19) -/
  cmp : BitVec 2
  /-- an illegal request has occurred since reset (R24) -/
  ill : Bool
  deriving DecidableEq, Repr

/-- The state. The first nine fields are the whole architectural state of the block, 55 words and 5
flag bits (R25). The last three are the model's own and stand for the host at the port (assumptions 2
to 4): they are no state of the block. -/
structure State where
  /-- the element registers `E[0]` to `E[7]` (R10, R11) -/
  elems : Vector Elem 8
  /-- the Montgomery constant (R14) -/
  inv : Limb
  /-- first pair, high half (R15) -/
  ah : Limb
  /-- first pair, low half (R15) -/
  al : Limb
  /-- second pair, high half (R15) -/
  bh : Limb
  /-- second pair, low half (R15) -/
  bl : Limb
  /-- sum of the last `ADD64`, high half (R16) -/
  rh : Limb
  /-- sum of the last `ADD64`, low half (R16) -/
  rl : Limb
  /-- `STATUS` (R17) -/
  status : Status
  /-- MODEL'S OWN: the events the host has issued and the block has not performed yet, oldest first
  (R37) -/
  pending : List HostEvent
  /-- MODEL'S OWN: the words the host's `PortRead`s have returned, oldest first (R30, R39) -/
  returned : List Limb
  /-- MODEL'S OWN: how many free words `Reset` events have drawn (R147) -/
  draws : Nat
  deriving DecidableEq, Repr

/-- Faults: none. No operation raises anything (R130), an illegal request only sets `ILL` and the
block goes on (R132), so the type has no constructor. Safe: nothing stops where the block goes on. -/
inductive Fault where
  deriving DecidableEq, Repr

/-- Refusals: where the model gives no meaning. -/
inductive Refusal where
  /-- raised by an arm of `exec` for a command without a meaning; no arm does. Safe. -/
  | notModelled (mnemonic : String)
  /-- raised by `step` on a transaction of a second host: "outside this spec: a model must refuse it"
  (R38). Safe. -/
  | severalHosts
  deriving DecidableEq, Repr

/-- `STATUS` after reset: all fields 0 (R146). -/
def Status.reset : Status := { borrow := false, lte := false, cmp := 0, ill := false }

/-- The machine right after reset: `STATUS` is 0 (R146); the data words, which R147 leaves open, hold
the word assumption 1 names; the host has issued nothing. -/
def State.reset : State :=
  { elems := Vector.replicate 8 (Vector.replicate 6 Config.resetDataWord)
    inv := Config.resetDataWord
    ah := Config.resetDataWord
    al := Config.resetDataWord
    bh := Config.resetDataWord
    bl := Config.resetDataWord
    rh := Config.resetDataWord
    rl := Config.resetDataWord
    status := Status.reset
    pending := []
    returned := []
    draws := 0 }

end Sys2Proof.Machine
end

