-- ==== Sys2Proof/Machine/Flags.lean ====
section
/-! DEFINITION. The flags of `STATUS`: their encodings, their writes and the word a read returns (R17 to
R21, R24, R39). -/

namespace Sys2Proof.Machine

/-- −1, 0, +1 as a 2-bit two's complement number (R19). -/
def cmpCode : Ordering → BitVec 2
  | .lt => 0b11
  | .eq => 0b00
  | .gt => 0b01

/-- `STATUS.BORROW <- b` (R18). -/
def State.setBorrow (s : State) (b : Bool) : State := { s with status := { s.status with borrow := b } }

/-- `STATUS.LTE <- b` (R20). -/
def State.setLte (s : State) (b : Bool) : State := { s with status := { s.status with lte := b } }

/-- `STATUS.CMP <- code` of an ordering (R19). -/
def State.setCmp (s : State) (o : Ordering) : State :=
  { s with status := { s.status with cmp := cmpCode o } }

/-- `STATUS.ILL <- 1` (R24). -/
def State.setIll (s : State) : State := { s with status := { s.status with ill := true } }

/-- What a read of `STATUS` returns: `ILL·16 + CMP·4 + LTE·2 + BORROW` (R17, R39). -/
def Status.word (f : Status) : Limb :=
  BitVec.ofNat 64 (f.ill.toNat * 16 + f.cmp.toNat * 4 + f.lte.toNat * 2 + f.borrow.toNat)

end Sys2Proof.Machine
end

