-- ==== Sys2Proof/Machine/Limb.lean ====
section
/-! DEFINITION. The limb primitives and the double-width helpers as pure functions
(`40_double_width.md`, R60 to R64, R66). -/

namespace Sys2Proof.Machine

/-- A 128-bit unsigned value as a (high, low) pair of limbs (R64). -/
structure Wide where
  hi : Limb
  lo : Limb
  deriving DecidableEq, Repr

/-- `hi·2^64 + lo`. -/
def Wide.val (w : Wide) : Nat := w.hi.toNat * 2 ^ 64 + w.lo.toNat

/-- The 64-bit carry-propagating adder: the exact sum, narrowed, and its carry out (R60). -/
def adc64 (a b : Limb) (cin : Bool) : Limb × Bool :=
  let t := a.toNat + b.toNat + cin.toNat
  (BitVec.ofNat 64 t, decide (2 ^ 64 ≤ t))

/-- The 64-bit borrow-propagating subtractor: the exact difference, narrowed, and its borrow out
(R61). -/
def sbb64 (a b : Limb) (bin : Bool) : Limb × Bool :=
  let t : Int := (a.toNat : Int) - b.toNat - bin.toNat
  (BitVec.ofInt 64 t, decide (t < 0))

/-- The 64×64→128 multiplier (R62). -/
def mul64 (a b : Limb) : Wide :=
  let p := a.toNat * b.toNat
  { hi := BitVec.ofNat 64 (p / 2 ^ 64), lo := BitVec.ofNat 64 p }

/-- The truncating multiplier (R63). -/
def mullo64 (a b : Limb) : Limb := a * b

/-- The wrapping adder (R63). -/
def addlo64 (a b : Limb) : Limb := a + b

/-- A limb as a 128-bit value, high half zero (R94: the pair `0, carry`). -/
def Wide.ofLimb (a : Limb) : Wide := { hi := 0, lo := a }

/-- The 128-bit comparator; `lt`, `eq`, `gt` stand for −1, 0, +1. Tests in the spec's order (R64). -/
def cmp128 (x y : Wide) : Ordering :=
  if x.hi = y.hi ∧ x.lo = y.lo then .eq
  else if x.hi < y.hi then .lt
  else if y.hi < x.hi then .gt
  else if x.lo < y.lo then .lt
  else .gt

/-- The 128-bit adder: low stage, then high stage; the last carry is dropped (R66). -/
def add128 (a b : Wide) : Wide :=
  let low := adc64 a.lo b.lo false
  let high := adc64 a.hi b.hi low.2
  { hi := high.1, lo := low.1 }

end Sys2Proof.Machine
end

