-- ==== Sys2Proof/Machine/Operands.lean ====
section
/-! DEFINITION. The operand forms (R49, R50): an element register by index, the two fixed pairs of the
helpers, and `INV` (the field `State.inv`). There are no immediates and no addressing modes. A meaning
reads its operands from the state it starts in and writes afterwards, which is operand capture (R53). -/

namespace Sys2Proof.Machine

/-- `E[r]`, all six limbs (R10, R50). -/
def State.elem (s : State) (r : EReg) : Elem := s.elems[r]

/-- The first pair (`AH`, `AL`) (R15, R50). -/
def State.firstPair (s : State) : Wide := { hi := s.ah, lo := s.al }

/-- The second pair (`BH`, `BL`) (R15, R50). -/
def State.secondPair (s : State) : Wide := { hi := s.bh, lo := s.bl }

/-- The result pair (`RH`, `RL`) (R16, R50). -/
def State.resultPair (s : State) : Wide := { hi := s.rh, lo := s.rl }

end Sys2Proof.Machine
end

