-- ==== Sys2Proof/Machine/Ops.lean ====
section
/-! DEFINITION. The named operations over the registers: register writes, the address map (R31, R32),
what a read returns (R36, R39), the illegal request (R132) and `Reset` (R145 to R147). The block has no
memory (R25, R44) and takes no exception: an illegal request transfers control nowhere and saves
nothing (R132, R136), and there is no return from one (R137). -/

namespace Sys2Proof.Machine

/-- `E[r] <- v`, all six limbs (R10). -/
def State.setElem (s : State) (r : EReg) (v : Elem) : State := { s with elems := s.elems.set r v }

/-- `E[r][l] <- v`, one limb, from the port (R31). -/
def State.setLimb (s : State) (r : EReg) (l : Fin 6) (v : Limb) : State :=
  s.setElem r ((s.elem r).set l v)

/-- `RH <- hi; RL <- lo` (R16, R67). -/
def State.setResultPair (s : State) (w : Wide) : State := { s with rh := w.hi, rl := w.lo }

/-- An illegal request: `ILL` is set and nothing else changes (R132). -/
def illegalRequest (s : State) : State := s.setIll

/-- The scalar and control registers at `0x40` to `0x48`; nothing is mapped above (R32). -/
def scalarAt (a : Nat) : PortReg :=
  match a with
  | 0x40 => .inv
  | 0x41 => .ah
  | 0x42 => .al
  | 0x43 => .bh
  | 0x44 => .bl
  | 0x45 => .rh
  | 0x46 => .rl
  | 0x47 => .status
  | 0x48 => .cmd
  | _ => .unmapped

/-- The address map: `a[7:6] = 0b00` is element space, with `a[5:3] = r` and `a[2:0] = l`, the words
`l = 6, 7` unmapped (R31); the rest is R32. -/
def portReg (a : Addr) : PortReg :=
  if a.extractLsb' 6 2 = 0 then
    let r : EReg := ⟨(a.extractLsb' 3 3).toNat, (a.extractLsb' 3 3).isLt⟩
    let l := (a.extractLsb' 0 3).toNat
    if h : l < 6 then .elem r ⟨l, h⟩ else .unmapped
  else scalarAt a.toNat

/-- The word address of limb `l` of element register `r`, `8·r + l` (R31), written `eR.L` (R55). -/
def elemAddr (r : EReg) (l : Fin 6) : Addr := BitVec.ofNat 8 (8 * r.val + l.val)

/-- The word address of a mapped register (R31, R32, R55). -/
def PortReg.addr : PortReg → Option Addr
  | .elem r l => some (elemAddr r l)
  | .inv => some 0x40
  | .ah => some 0x41
  | .al => some 0x42
  | .bh => some 0x43
  | .bl => some 0x44
  | .rh => some 0x45
  | .rl => some 0x46
  | .status => some 0x47
  | .cmd => some 0x48
  | .unmapped => none

/-- Access rights from the port (R31, R32). -/
def PortReg.access : PortReg → Access
  | .elem _ _ => .readWrite
  | .inv => .readWrite
  | .ah => .readWrite
  | .al => .readWrite
  | .bh => .readWrite
  | .bl => .readWrite
  | .rh => .readOnly
  | .rl => .readOnly
  | .status => .readOnly
  | .cmd => .writeOnly
  | .unmapped => .none

/-- The value of a register as the port reads it; `CMD` and unmapped addresses give 0 (R36, R39). -/
def regValue (s : State) : PortReg → Limb
  | .elem r l => (s.elem r)[l]
  | .inv => s.inv
  | .ah => s.ah
  | .al => s.al
  | .bh => s.bh
  | .bl => s.bl
  | .rh => s.rh
  | .rl => s.rl
  | .status => s.status.word
  | .cmd => 0
  | .unmapped => 0

/-- The word `PortRead(a)` returns (R36, R39). -/
def readValue (s : State) (a : Addr) : Limb := regValue s (portReg a)

/-- `PortRead(a)`: the host gets the word; no register changes (R39). -/
def portRead (a : Addr) (s : State) : State := { s with returned := s.returned ++ [readValue s a] }

/-- The `k`-th free word of the `Reset` that happens in `s`, for a register that holds `old` (R147). -/
def resetWord (s : State) (k : Nat) (old : Limb) : Limb := Config.freeWord (s.draws + k) old

/-- `Reset`: `STATUS` is 0 (R146) and each of the 55 data words is a free word of its own (R147). What
the host has issued and been given is no state of the block. -/
def applyReset (s : State) : State :=
  { elems := Vector.ofFn fun r : Fin 8 => Vector.ofFn fun l : Fin 6 =>
      resetWord s (6 * r.val + l.val) (s.elem r)[l]
    inv := resetWord s 48 s.inv
    ah := resetWord s 49 s.ah
    al := resetWord s 50 s.al
    bh := resetWord s 51 s.bh
    bl := resetWord s 52 s.bl
    rh := resetWord s 53 s.rh
    rl := resetWord s 54 s.rl
    status := Status.reset
    pending := s.pending
    returned := s.returned
    draws := s.draws + 55 }

end Sys2Proof.Machine
end

