-- ==== Sys2Proof/Machine/DoubleWidth.lean ====
section
/-! DEFINITION. The commands of the double-width helpers (`40_double_width.md`). -/

namespace Sys2Proof.Machine

/-- `CMP128` (R65). -/
def execCmp128 (s : State) : Host.Outcome State Fault Refusal :=
  .next (s.setCmp (cmp128 s.firstPair s.secondPair))

/-- `ADD64` (R67). -/
def execAdd64 (s : State) : Host.Outcome State Fault Refusal :=
  .next (s.setResultPair (add128 s.firstPair s.secondPair))

end Sys2Proof.Machine
end

