-- ==== Sys2Proof/Machine/Element.lean ====
section
/-! DEFINITION. The 384-bit functions: value of an element, addition, subtraction, the ordering
predicate, the conditional correction, modular addition and subtraction (R11, R75, R77, R79, R85,
R87). -/

namespace Sys2Proof.Machine

/-- `val(e) = e0 + e1·2^64 + e2·2^128 + e3·2^192 + e4·2^256 + e5·2^320` (R11). -/
def elemVal (x : Elem) : Nat :=
  x[0].toNat + x[1].toNat * 2 ^ 64 + x[2].toNat * 2 ^ 128 + x[3].toNat * 2 ^ 192
    + x[4].toNat * 2 ^ 256 + x[5].toNat * 2 ^ 320

/-- `limbs(v)`: the element of value `v`, for `v < 2^384` (`00_scope.md` section 4). -/
def elemOfNat (v : Nat) : Elem := Vector.ofFn fun l : Fin 6 => BitVec.ofNat 64 (v / 2 ^ (64 * l.val))

/-- 384-bit addition: carry from limb 0 to limb 5, the last one dropped (R75). -/
def add384 (x y : Elem) : Elem :=
  let s0 := adc64 x[0] y[0] false
  let s1 := adc64 x[1] y[1] s0.2
  let s2 := adc64 x[2] y[2] s1.2
  let s3 := adc64 x[3] y[3] s2.2
  let s4 := adc64 x[4] y[4] s3.2
  let s5 := adc64 x[5] y[5] s4.2
  #v[s0.1, s1.1, s2.1, s3.1, s4.1, s5.1]

/-- 384-bit subtraction: borrow from limb 0 to limb 5, the last one returned (R77). -/
def sub384 (x y : Elem) : Elem × Bool :=
  let d0 := sbb64 x[0] y[0] false
  let d1 := sbb64 x[1] y[1] d0.2
  let d2 := sbb64 x[2] y[2] d1.2
  let d3 := sbb64 x[3] y[3] d2.2
  let d4 := sbb64 x[4] y[4] d3.2
  let d5 := sbb64 x[5] y[5] d4.2
  (#v[d0.1, d1.1, d2.1, d3.1, d4.1, d5.1], d5.2)

/-- The componentwise ordering predicate, scanned from limb 0 and false at the first limb of `x` above
its counterpart (R79). It is not the numeric order. -/
def lteElem (x y : Elem) : Bool :=
  decide (x[0] ≤ y[0]) && decide (x[1] ≤ y[1]) && decide (x[2] ≤ y[2])
    && decide (x[3] ≤ y[3]) && decide (x[4] ≤ y[4]) && decide (x[5] ≤ y[5])

/-- The final correction of `ADDMOD` and `MULMOD`: one subtraction of the modulus, made exactly when
the componentwise predicate says `m ≤ o`, its borrow dropped (R85, R99). -/
def correct (m o : Elem) : Elem := if lteElem m o then (sub384 o m).1 else o

/-- Modular addition with one conditional correction (R85). -/
def addmod (x y m : Elem) : Elem := correct m (add384 x y)

/-- Modular subtraction: on a borrow the modulus is added back once (R87). -/
def submod (x y m : Elem) : Elem :=
  let d := sub384 x y
  if d.2 then add384 d.1 m else d.1

end Sys2Proof.Machine
end

