-- ==== Sys2Proof/Machine/FixedWidth.lean ====
section
/-! DEFINITION. The fixed-width commands (`41_fixed_width.md`). -/

namespace Sys2Proof.Machine

/-- `ADD rd, rs1, rs2` (R76). -/
def execAdd (rd rs1 rs2 : EReg) (s : State) : Host.Outcome State Fault Refusal :=
  .next (s.setElem rd (add384 (s.elem rs1) (s.elem rs2)))

/-- `SUB rd, rs1, rs2` (R78). -/
def execSub (rd rs1 rs2 : EReg) (s : State) : Host.Outcome State Fault Refusal :=
  let d := sub384 (s.elem rs1) (s.elem rs2)
  .next ((s.setElem rd d.1).setBorrow d.2)

/-- `LTE rs1, rs2` (R80). -/
def execLte (rs1 rs2 : EReg) (s : State) : Host.Outcome State Fault Refusal :=
  .next (s.setLte (lteElem (s.elem rs1) (s.elem rs2)))

end Sys2Proof.Machine
end

