-- ==== Sys2Proof/Machine/Modular.lean ====
section
/-! DEFINITION. The modular addition and subtraction commands (`42_modular_addsub.md`). Their inner
predicate and borrow write no flag (R21). -/

namespace Sys2Proof.Machine

/-- `ADDMOD rd, rs1, rs2, rm` (R86). -/
def execAddmod (rd rs1 rs2 rm : EReg) (s : State) : Host.Outcome State Fault Refusal :=
  .next (s.setElem rd (addmod (s.elem rs1) (s.elem rs2) (s.elem rm)))

/-- `SUBMOD rd, rs1, rs2, rm` (R88). -/
def execSubmod (rd rs1 rs2 rm : EReg) (s : State) : Host.Outcome State Fault Refusal :=
  .next (s.setElem rd (submod (s.elem rs1) (s.elem rs2) (s.elem rm)))

end Sys2Proof.Machine
end

