-- ==== Sys2Proof/Machine/Cios.lean ====
section
/-! DEFINITION. Montgomery multiplication by the CIOS method, step by step (R90 to R99). The
accumulator, the carry and the reduction multiplier live inside one call (R22). -/

namespace Sys2Proof.Machine

/-- What one inner iteration hands to the next: the accumulator `A` and the running carry (R94). -/
structure RowState where
  acc : Accumulator
  carry : Limb
  deriving DecidableEq, Repr

/-- The value of the accumulator, `V = Σ A[k]·b^k` for k from 0 to 12 (R104). -/
def accVal (A : Accumulator) : Nat := ∑ k : Fin 13, A[k].toNat * 2 ^ (64 * k.val)

/-- The order of both loops: 0, 1, 2, 3, 4, 5 (R90, R93). -/
def limbIndices : List (Fin 6) := [0, 1, 2, 3, 4, 5]

/-- The reduction multiplier `u` of row `i` (R92, step 1). -/
def rowMultiplier (x y : Elem) (inv : Limb) (A : Accumulator) (i : Fin 6) : Limb :=
  mullo64 (addlo64 A[i.val] (mullo64 x[i] y[0])) inv

/-- `P = x[i]·y[j] + carry` (R94). -/
def partialSum (x y : Elem) (i j : Fin 6) (carry : Limb) : Wide :=
  add128 (mul64 x[i] y[j]) (Wide.ofLimb carry)

/-- `T = u·m[j] + A[i+j]` (R94). -/
def reductionTerm (m : Elem) (u : Limb) (j : Fin 6) (a : Limb) : Wide :=
  add128 (mul64 u m[j]) (Wide.ofLimb a)

/-- `w`: a carry escaped from the 128-bit sum `S` with partial sum `P` (R95). -/
def carryEscaped (S P : Wide) : Bool := decide (cmp128 S P = .lt)

/-- The ripple loop: `fuel` limbs are left from limb `k` on (R96). -/
def rippleLoop : (fuel k : Nat) → Accumulator → Accumulator
  | 0, _, A => A
  | fuel + 1, k, A =>
    if h : k < 13 then
      if A[k] = saturated then rippleLoop fuel (k + 1) (A.set k 0) else A.set k (A[k] + 1)
    else A

/-- Add 1 at limb `s`, propagating through saturated limbs up to the end of `A` (R96). -/
def ripple (s : Nat) (A : Accumulator) : Accumulator := rippleLoop (13 - s) s A

/-- Inner iteration (i, j): the double-width sum, then the carry fix-up (R93 to R96). -/
def innerStep (x y m : Elem) (u : Limb) (i : Fin 6) (t : RowState) (j : Fin 6) : RowState :=
  let P := partialSum x y i j t.carry
  let T := reductionTerm m u j t.acc[i.val + j.val]
  let S := add128 P T
  let A := t.acc.set (i.val + j.val) S.lo
  { acc := if carryEscaped S P then ripple (i.val + j.val + 2) A else A
    carry := S.hi }

/-- The six inner iterations of row `i`, the carry starting at 0 (R92, R93). -/
def innerLoop (x y m : Elem) (u : Limb) (i : Fin 6) (A : Accumulator) : RowState :=
  limbIndices.foldl (innerStep x y m u i) { acc := A, carry := 0 }

/-- The end of row `i`: the last carry is added into `A[i+6]`, its carry out dropped (R97, step 4). -/
def endRow (i : Fin 6) (t : RowState) : Accumulator :=
  t.acc.set (i.val + 6) (addlo64 t.acc[i.val + 6] t.carry)

/-- Row `i` (R92 to R97). -/
def row (x y m : Elem) (inv : Limb) (A : Accumulator) (i : Fin 6) : Accumulator :=
  endRow i (innerLoop x y m (rowMultiplier x y inv A i) i A)

/-- The accumulator after row 5, from the zero accumulator (R91). -/
def accumulate (x y m : Elem) (inv : Limb) : Accumulator :=
  limbIndices.foldl (row x y m inv) (Vector.replicate 13 0)

/-- The copy: limbs 6 to 11 of the accumulator (R98). -/
def copyOut (A : Accumulator) : Elem := #v[A[6], A[7], A[8], A[9], A[10], A[11]]

/-- Montgomery multiplication (R90): rows, copy, final conditional subtraction (R99). -/
def mulmod (x y m : Elem) (inv : Limb) : Elem := correct m (copyOut (accumulate x y m inv))

end Sys2Proof.Machine
end

