-- ==== Sys2Proof/Machine/Montgomery.lean ====
section
/-! DEFINITION. The Montgomery multiplication command (`43_montgomery.md`). -/

namespace Sys2Proof.Machine

/-- `MULMOD rd, rs1, rs2, rm`: reads the three elements and `INV`, writes `E[rd]` and nothing else
(R100). -/
def execMulmod (rd rs1 rs2 rm : EReg) (s : State) : Host.Outcome State Fault Refusal :=
  .next (s.setElem rd (mulmod (s.elem rs1) (s.elem rs2) (s.elem rm) s.inv))

end Sys2Proof.Machine
end

