-- ==== Sys2Proof/Machine/Dispatch.lean ====
section
/-! DEFINITION. One arm per command. -/

namespace Sys2Proof.Machine

def exec (i : Instr) (s : State) : Host.Outcome State Fault Refusal :=
  match i with
  | .cmp128 => Sys2Proof.Machine.execCmp128 s
  | .add64 => Sys2Proof.Machine.execAdd64 s
  | .add rd rs1 rs2 => Sys2Proof.Machine.execAdd rd rs1 rs2 s
  | .sub rd rs1 rs2 => Sys2Proof.Machine.execSub rd rs1 rs2 s
  | .lte rs1 rs2 => Sys2Proof.Machine.execLte rs1 rs2 s
  | .addmod rd rs1 rs2 rm => Sys2Proof.Machine.execAddmod rd rs1 rs2 rm s
  | .submod rd rs1 rs2 rm => Sys2Proof.Machine.execSubmod rd rs1 rs2 rm s
  | .mulmod rd rs1 rs2 rm => Sys2Proof.Machine.execMulmod rd rs1 rs2 rm s

end Sys2Proof.Machine
end

