-- ==== Sys2Proof/Machine/Port.lean ====
section
/-! DEFINITION. What one event at the port does: `PortWrite` with the command it may carry (R40, R52,
R150), `PortRead` (R39), `Reset` (R145), a second host (R38). -/

namespace Sys2Proof.Machine

/-- A write to `CMD`: the decoded command runs to completion inside the transaction (R40, R150); a
malformed datum is an illegal request (R52). -/
def issueCommand (v : Limb) (s : State) : Host.Outcome State Fault Refusal :=
  match decode v with
  | .command i => exec i s
  | .malformed _ => .next (illegalRequest s)

/-- A write to what an address names: a read-write register takes the value, `CMD` issues a command,
anything else is an illegal request (R36, R40). -/
def writeReg (v : Limb) (s : State) : PortReg → Host.Outcome State Fault Refusal
  | .elem r l => .next (s.setLimb r l v)
  | .inv => .next { s with inv := v }
  | .ah => .next { s with ah := v }
  | .al => .next { s with al := v }
  | .bh => .next { s with bh := v }
  | .bl => .next { s with bl := v }
  | .rh => .next (illegalRequest s)
  | .rl => .next (illegalRequest s)
  | .status => .next (illegalRequest s)
  | .cmd => issueCommand v s
  | .unmapped => .next (illegalRequest s)

/-- `PortWrite(a, v)` (R40). -/
def portWrite (a : Addr) (v : Limb) (s : State) : Host.Outcome State Fault Refusal :=
  writeReg v s (portReg a)

/-- One transaction of the block's host (R30). -/
def perform (t : Transaction) (s : State) : Host.Outcome State Fault Refusal :=
  match t with
  | .read a => .next (portRead a s)
  | .write a v => portWrite a v s

/-- One event (R30, R38, R145). -/
def performEvent (e : HostEvent) (s : State) : Host.Outcome State Fault Refusal :=
  match e with
  | .transact t => perform t s
  | .reset => .next (applyReset s)
  | .foreign _ => .refused .severalHosts

/-- `WR a, v` (R55). -/
def wrEvent (a : Addr) (v : Limb) : HostEvent := .transact (.write a v)

/-- `RD a` (R55). -/
def rdEvent (a : Addr) : HostEvent := .transact (.read a)

/-- The address of `CMD` (R32). -/
def cmdAddr : Addr := 0x48

/-- A command line: `PortWrite(0x48, zext_64(c))` (R54). -/
def issue (i : Instr) : HostEvent := wrEvent cmdAddr (encodeDatum i)

/-- `LDE eR, {v0, ..., v5}`: six writes, limb 0 first (R56). -/
def lde (r : EReg) (x : Elem) : List HostEvent :=
  [ wrEvent (elemAddr r 0) x[0], wrEvent (elemAddr r 1) x[1], wrEvent (elemAddr r 2) x[2],
    wrEvent (elemAddr r 3) x[3], wrEvent (elemAddr r 4) x[4], wrEvent (elemAddr r 5) x[5] ]

/-- `RDE eR`: six reads, limb 0 first (R56). -/
def rde (r : EReg) : List HostEvent :=
  [ rdEvent (elemAddr r 0), rdEvent (elemAddr r 1), rdEvent (elemAddr r 2),
    rdEvent (elemAddr r 3), rdEvent (elemAddr r 4), rdEvent (elemAddr r 5) ]

end Sys2Proof.Machine
end

