-- ==== Sys2Proof/Machine/Step.lean ====
section
/-! DEFINITION. One step: the oldest event the host has issued is performed whole (R37, R41, R150). -/

namespace Sys2Proof.Machine

/-- One step. Between events the block is quiescent and its state does not change (R153), so a step
with nothing issued leaves the state as it is. -/
def step (s : State) : Host.Outcome State Fault Refusal :=
  match s.pending with
  | [] => .next s
  | e :: rest => performEvent e { s with pending := rest }

/-- `s` with the table word issued to `CMD` as the host's next event: the block fetches nothing (R23,
R43), so this is how a command comes to it (assumption 5). -/
def State.withFetchWord (s : State) (nbits w : Nat) : State :=
  { s with pending := wrEvent cmdAddr (tableDatum nbits w) :: s.pending }

end Sys2Proof.Machine
end

