-- ==== Sys2Proof/Safety.lean ====
section
/-! DEFINITION. The terms claims are stated in: preconditions of the caller's contract, what counts as an
illegal request, the invariant of `STATUS.CMP`, and what a step leaves unchanged. -/

namespace Sys2Proof

open Sys2Proof.Machine

/-- `k` steps one after another, ending at the first that answers no next state (R37). -/
def runSteps : Nat → State → Host.Outcome State Fault Refusal
  | 0, s => .next s
  | k + 1, s =>
    match step s with
    | .next t => runSteps k t
    | .fault r => .fault r
    | .refused r => .refused r

/-- `v` is reduced by `m`: `val(v) < val(m)` (`00_scope.md` section 6). -/
def Reduced (x m : Elem) : Prop := elemVal x < elemVal m

/-- `inv·m[0] ≡ −1 (mod 2^64)` (R14, R104). -/
def InverseConstant (inv : Limb) (m : Elem) : Prop := (inv.toNat * m[0].toNat + 1) % 2 ^ 64 = 0

/-- The preconditions PRE of a Montgomery multiplication (R104). -/
structure MontgomeryPre (x y m : Elem) (inv : Limb) : Prop where
  inverse : InverseConstant inv m
  x_reduced : Reduced x m
  y_reduced : Reduced y m
  modulus_le : elemVal m ≤ 2 ^ 383

/-- `m[l] ≤ x[l]` for every limb `l`: the condition under which a correction is made (R85, R99). -/
def Dominates (x m : Elem) : Prop := ∀ l : Fin 6, m[l].toNat ≤ x[l].toNat

/-- The malformed data of R52, by arithmetic on the datum read as a number. -/
def MalformedDatum (v : Limb) : Prop :=
  let n := v.toNat
  let op := n % 16
  2 ^ 16 ≤ n ∨ op = 0 ∨ 9 ≤ op
    ∨ ((op = 1 ∨ op = 2) ∧ n / 16 % 4096 ≠ 0)
    ∨ ((op = 3 ∨ op = 4) ∧ n / 2 ^ 13 % 8 ≠ 0)
    ∨ (op = 5 ∧ (n / 16 % 8 ≠ 0 ∨ n / 2 ^ 13 % 8 ≠ 0))

/-- The addresses R36 and R131 (2), (3) name: `RH`, `RL`, `STATUS`, the holes `8·r + 6` and `8·r + 7`, and
`0x49` to `0xFF`. -/
def NonWritableAddr (a : Addr) : Prop :=
  a = 0x45 ∨ a = 0x46 ∨ a = 0x47 ∨ (a.toNat < 64 ∧ 6 ≤ a.toNat % 8) ∨ 0x49 ≤ a.toNat

/-- The illegal requests, all of them port writes (R131). -/
def IllegalWrite (a : Addr) (v : Limb) : Prop := (a = 0x48 ∧ MalformedDatum v) ∨ NonWritableAddr a

/-- The unmapped addresses: the holes `8·r + 6` and `8·r + 7`, and `0x49` to `0xFF` (R31, R32). -/
def UnmappedAddr (a : Addr) : Prop := (a.toNat < 64 ∧ 6 ≤ a.toNat % 8) ∨ 0x49 ≤ a.toNat

/-- The read-write addresses: the 48 element limbs, `INV`, `AH`, `AL`, `BH`, `BL` (R31, R32). -/
def ReadWriteAddr (a : Addr) : Prop := (a.toNat < 64 ∧ a.toNat % 8 < 6) ∨ (0x40 ≤ a.toNat ∧ a.toNat ≤ 0x44)

/-- The host's next event issues the command `i` (R40, R54). -/
def IssuesNext (i : Instr) (s : State) : Prop :=
  ∃ v rest, s.pending = .transact (.write 0x48 v) :: rest ∧ decode v = .command i

/-- The host's next event is `Reset` (R145). -/
def ResetNext (s : State) : Prop := ∃ rest, s.pending = .reset :: rest

/-- The host's next event is a write the block rejects (R131). -/
def IllegalWriteNext (s : State) : Prop :=
  ∃ a v rest, s.pending = .transact (.write a v) :: rest ∧ IllegalWrite a v

/-- `Σ_{k=s}^{12} A[k]·2^(64(k−s))`, the accumulator from limb `s` on as one integer (R96). -/
def upperVal (A : Accumulator) (s : Nat) : Nat :=
  ∑ k : Fin 13, if s ≤ k.val then A[k].toNat * 2 ^ (64 * (k.val - s)) else 0

/-- The accumulator before row `n` (R91 to R97). -/
def accBeforeRow (x y m : Elem) (inv : Limb) (n : Fin 6) : Accumulator :=
  (limbIndices.take n.val).foldl (row x y m inv) (Vector.replicate 13 0)

/-- The accumulator after `k` inner iterations of row `n` (R93). -/
def accWithinRow (x y m : Elem) (inv : Limb) (n : Fin 6) (k : Nat) : Accumulator :=
  let A := accBeforeRow x y m inv n
  ((limbIndices.take k).foldl (innerStep x y m (rowMultiplier x y inv A n) n) { acc := A, carry := 0 }).acc

/-- The `while` of the listing: `fuel` limbs are left from limb `k` on. -/
def listingRipple : (fuel k : Nat) → Vector Nat 13 → Vector Nat 13
  | 0, _, A => A
  | fuel + 1, k, A =>
    if h : k < 13 then
      if A[k] = 2 ^ 64 - 1 then listingRipple fuel (k + 1) (A.set k 0) else A.set k (A[k] + 1)
    else A

/-- The body of the inner loop of the listing, on the accumulator and the carry. -/
def listingInner (x y m : Elem) (u : Nat) (i : Fin 6) (t : Vector Nat 13 × Nat) (j : Fin 6) :
    Vector Nat 13 × Nat :=
  let P := x[i].toNat * y[j].toNat + t.2
  let T := u * m[j].toNat + t.1[i.val + j.val]
  let S := P + T
  let A := t.1.set (i.val + j.val) (S % 2 ^ 64)
  let carry := S / 2 ^ 64 % 2 ^ 64
  (if S % 2 ^ 128 < P then listingRipple (11 - (i.val + j.val)) (i.val + j.val + 2) A else A, carry)

/-- The body of the outer loop of the listing. -/
def listingRow (x y m : Elem) (inv : Limb) (A : Vector Nat 13) (i : Fin 6) : Vector Nat 13 :=
  let u := (A[i.val] + x[i].toNat * y[0].toNat) % 2 ^ 64 * inv.toNat % 2 ^ 64
  let t := limbIndices.foldl (listingInner x y m u i) (A, 0)
  t.1.set (i.val + 6) ((t.1[i.val + 6] + t.2) % 2 ^ 64)

/-- The whole algorithm in one listing, in exact integer arithmetic (`43_montgomery.md` section 3). -/
def listing (x y m : Elem) (inv : Limb) : Elem :=
  let A := limbIndices.foldl (listingRow x y m inv) (Vector.replicate 13 0)
  let o : Elem := Vector.ofFn fun l : Fin 6 => BitVec.ofNat 64 A[6 + l.val]
  if ∀ l : Fin 6, m[l].toNat ≤ o[l].toNat then elemOfNat (elemVal o - elemVal m) else o

/-- `STATUS.CMP` holds one of the three codes of R19. -/
def CmpLegal (s : State) : Prop := s.status.cmp ≠ 0b10

/-- The scalar registers `INV, AH, AL, BH, BL, RH, RL` of `t` are those of `s`. -/
def SameScalars (s t : State) : Prop :=
  t.inv = s.inv ∧ t.ah = s.ah ∧ t.al = s.al ∧ t.bh = s.bh ∧ t.bl = s.bl ∧ t.rh = s.rh ∧ t.rl = s.rl

/-- The element registers of `t` are those of `s`. -/
def SameElems (s t : State) : Prop := ∀ r : EReg, t.elem r = s.elem r

/-- Every element register of `t` but `E[rd]` is that of `s`. -/
def SameElemsExcept (rd : EReg) (s t : State) : Prop := ∀ r : EReg, r ≠ rd → t.elem r = s.elem r

/-- The model's own fields, the host at the port, are the same in `t` and `s`. -/
def SameHostSide (s t : State) : Prop :=
  t.pending = s.pending ∧ t.returned = s.returned ∧ t.draws = s.draws

/-- The block's whole architectural state (R25) is the same in `t` and `s`. -/
def SameBlock (s t : State) : Prop := SameElems s t ∧ SameScalars s t ∧ t.status = s.status

/-- The only element register that differs is `E[rd]`; every scalar, every flag and the host's side are
the same. -/
def OnlyElemChanged (rd : EReg) (s t : State) : Prop :=
  SameElemsExcept rd s t ∧ SameScalars s t ∧ t.status = s.status ∧ SameHostSide s t

/-- The only change is `ILL <- 1` (R132). -/
def OnlyIllSet (s t : State) : Prop :=
  SameElems s t ∧ SameScalars s t ∧ t.status = { s.status with ill := true } ∧ SameHostSide s t

end Sys2Proof
end

