-- ==== Sys2Proof/Certificates/Slice0/Obligations.lean ====
section
/-! DEFINITION. The statements for the provers. Each docstring names the rule of `spec/` it formalises. -/

open Sys2Proof Sys2Proof.Machine

/-! ### Encoding -/

/-- The command words V-ENC-1 to V-ENC-11 decode to the commands they stand for. -/
def Obligations.SpecWordsDecode : Prop :=
  decode 0x00000001 = .command .cmp128
  ∧ decode 0x00000002 = .command .add64
  ∧ decode 0x00000423 = .command (.add 2 0 1)
  ∧ decode 0x000001c4 = .command (.sub 4 3 0)
  ∧ decode 0x00001d34 = .command (.sub 3 2 7)
  ∧ decode 0x00000b85 = .command (.lte 7 2)
  ∧ decode 0x0000e426 = .command (.addmod 2 0 1 7)
  ∧ decode 0x0000e537 = .command (.submod 3 2 1 7)
  ∧ decode 0x0000f808 = .command (.mulmod 0 0 6 7)
  ∧ decode 0x0000fff8 = .command (.mulmod 7 7 7 7)
  ∧ decode 0x00000003 = .command (.add 0 0 0)

/-- Decoding the datum of a command gives the command back, for every operand (R46, R51). -/
def Obligations.DecodeEncodeRoundTrip : Prop :=
  ∀ i : Instr, decode (encodeDatum i) = .command i

/-- A command has one datum only: whatever decodes to it is its encoding (R46, R51). -/
def Obligations.CommandHasOneDatum : Prop :=
  ∀ (v : Limb) (i : Instr), decode v = .command i → v = encodeDatum i

/-- R48: a word is the command of a row exactly when `(c AND mask) = match`; the rows are disjoint and a
word that matches no row is malformed. -/
def Obligations.DecodeAgreesWithOpcodeTable : Prop :=
  (∀ row ∈ opcodeTable, ∀ c : CmdWord,
    c &&& row.mask = row.matchBits ↔
      ∃ i, decode (wordDatum c) = .command i ∧ i.mnemonic = row.mnemonic)
  ∧ (∀ r₁ ∈ opcodeTable, ∀ r₂ ∈ opcodeTable, ∀ c : CmdWord,
      c &&& r₁.mask = r₁.matchBits → c &&& r₂.mask = r₂.matchBits → r₁ = r₂)
  ∧ (∀ c : CmdWord, (∀ row ∈ opcodeTable, c &&& row.mask ≠ row.matchBits) →
      ∃ why, decode (wordDatum c) = .malformed why)

/-- R45: a datum decodes to a command exactly when its bits 63:32 are zero and its low word is a command
word. -/
def Obligations.CommandsAreWellFormedData : Prop :=
  ∀ v : Limb, datumWellFormed v = true ↔ ∃ i, decode v = .command i

/-- R52: the malformed data are those listed; written to `CMD` they set `ILL` and change nothing else. -/
def Obligations.MalformedDatumOnlySetsIll : Prop :=
  ∀ v : Limb, (MalformedDatum v ↔ ∃ why, decode v = .malformed why)
    ∧ (MalformedDatum v → ∀ s : State, ∃ t, portWrite 0x48 v s = .next t ∧ OnlyIllSet s t)

/-! ### The step and the port -/

/-- R40, R150: a step on a write of a command's datum to `CMD` is the command. -/
def Obligations.StepRunsDecodedCommand : Prop :=
  ∀ (s : State) (v : Limb) (rest : List HostEvent) (i : Instr),
    s.pending = .transact (.write 0x48 v) :: rest → decode v = .command i →
    step s = exec i { s with pending := rest }

/-- A table word issued with `withFetchWord` is the very next thing to run, and the rest of the state is
as it was. -/
def Obligations.FetchWordRunsNext : Prop :=
  ∀ (s : State) (nbits w : Nat) (i : Instr), decodeTableWord nbits w = some i →
    step (s.withFetchWord nbits w) = exec i s

/-- R130: every command completes, whatever the registers hold, and raises no event (`ILL` stays). -/
def Obligations.CommandsCompleteWithoutEvent : Prop :=
  ∀ (i : Instr) (s : State), ∃ t, exec i s = .next t ∧ t.status.ill = s.status.ill

/-- A step answers a next state unless the host's next event is a second host's, which is refused (R38,
R130, R132). -/
def Obligations.StepStopsOnlyOnSecondHost : Prop :=
  ∀ s : State,
    ((∀ tr rest, s.pending ≠ .foreign tr :: rest) → ∃ t, step s = .next t)
    ∧ (∀ tr rest, s.pending = .foreign tr :: rest → step s = .refused .severalHosts)

/-- R37: the oldest event is performed and removed, and a read returns its word to the host; nothing else
does. The two lists are the model's own (assumptions 3 and 4, and 13 for `Reset`). -/
def Obligations.EventsPerformedInOrder : Prop :=
  ∀ (s t : State) (e : HostEvent) (rest : List HostEvent), s.pending = e :: rest → step s = .next t →
    t.pending = rest
    ∧ (∀ a, e = .transact (.read a) → t.returned = s.returned ++ [readValue s a])
    ∧ ((∀ a, e ≠ .transact (.read a)) → t.returned = s.returned)

/-- R153: with nothing issued the state does not change. -/
def Obligations.QuiescentWithoutEvents : Prop :=
  ∀ s : State, s.pending = [] → step s = .next s

/-- R31: the element registers in the address map, the holes, and nothing else below `0x40`. -/
def Obligations.ElementAddressMap : Prop :=
  (∀ (r : EReg) (l : Fin 6), portReg (BitVec.ofNat 8 (8 * r.val + l.val)) = .elem r l)
  ∧ (∀ r : EReg, portReg (BitVec.ofNat 8 (8 * r.val + 6)) = .unmapped
      ∧ portReg (BitVec.ofNat 8 (8 * r.val + 7)) = .unmapped)
  ∧ (∀ (r : EReg) (l : Fin 6), (PortReg.elem r l).access = .readWrite)

/-- R32: the scalar and control registers in the address map, with their access. -/
def Obligations.ScalarAddressMap : Prop :=
  portReg 0x40 = .inv ∧ portReg 0x41 = .ah ∧ portReg 0x42 = .al ∧ portReg 0x43 = .bh
  ∧ portReg 0x44 = .bl ∧ portReg 0x45 = .rh ∧ portReg 0x46 = .rl ∧ portReg 0x47 = .status
  ∧ portReg 0x48 = .cmd ∧ (∀ a : Addr, 0x49 ≤ a.toNat → portReg a = .unmapped)
  ∧ (∀ p ∈ [PortReg.inv, .ah, .al, .bh, .bl], p.access = .readWrite)
  ∧ (∀ p ∈ [PortReg.rh, .rl, .status], p.access = .readOnly)
  ∧ PortReg.cmd.access = .writeOnly ∧ PortReg.unmapped.access = .none

/-- R39: a read returns the register's current value and changes no state of the block. -/
def Obligations.PortReadReturnsRegister : Prop :=
  (∀ (s : State) (a : Addr) (rest : List HostEvent), s.pending = .transact (.read a) :: rest →
    ∃ t, step s = .next t ∧ SameBlock s t ∧ t.pending = rest ∧ t.draws = s.draws
      ∧ t.returned = s.returned ++ [readValue s a])
  ∧ (∀ s : State,
      (∀ (r : EReg) (l : Fin 6), readValue s (BitVec.ofNat 8 (8 * r.val + l.val)) = (s.elem r)[l])
      ∧ readValue s 0x40 = s.inv ∧ readValue s 0x41 = s.ah ∧ readValue s 0x42 = s.al
      ∧ readValue s 0x43 = s.bh ∧ readValue s 0x44 = s.bl ∧ readValue s 0x45 = s.rh
      ∧ readValue s 0x46 = s.rl
      ∧ (readValue s 0x47).toNat = s.status.ill.toNat * 16 + s.status.cmp.toNat * 4
          + s.status.lte.toNat * 2 + s.status.borrow.toNat)

/-- R36: a read of an unmapped address or of `CMD` returns 0; a write to an unmapped address, `RH`, `RL`
or `STATUS` only sets `ILL`. -/
def Obligations.AccessesThatHitNothing : Prop :=
  ∀ (s : State) (a : Addr),
    (UnmappedAddr a ∨ a = 0x48 → readValue s a = 0)
    ∧ (UnmappedAddr a ∨ a = 0x45 ∨ a = 0x46 ∨ a = 0x47 →
        ∀ v, ∃ t, portWrite a v s = .next t ∧ OnlyIllSet s t)

/-- A write to a read-write register is what a read there then gives, every other address reads as before,
no flag changes, and writing the same again changes nothing (R40). -/
def Obligations.PortWriteReadBack : Prop :=
  ∀ (s : State) (a : Addr) (v : Limb), ReadWriteAddr a →
    ∃ t, portWrite a v s = .next t ∧ readValue t a = v
      ∧ (∀ b : Addr, b ≠ a → readValue t b = readValue s b)
      ∧ t.status = s.status ∧ SameHostSide s t ∧ portWrite a v t = .next t

/-- The six writes of `LDE` load the element and change nothing else of the block (R56). -/
def Obligations.LdeLoadsElement : Prop :=
  ∀ (s : State) (r : EReg) (x : Elem) (rest : List HostEvent), s.pending = lde r x ++ rest →
    ∃ t, runSteps 6 s = .next t ∧ t.elem r = x ∧ SameElemsExcept r s t
      ∧ SameScalars s t ∧ t.status = s.status ∧ t.pending = rest ∧ t.returned = s.returned

/-- The six reads of `RDE` return the limbs, limb 0 first, and change nothing of the block (R56). -/
def Obligations.RdeReturnsElement : Prop :=
  ∀ (s : State) (r : EReg) (rest : List HostEvent), s.pending = rde r ++ rest →
    ∃ t, runSteps 6 s = .next t ∧ SameBlock s t ∧ t.pending = rest
      ∧ t.returned = s.returned ++ (s.elem r).toList

/-! ### Reset -/

/-- R146: `Reset` sets `STATUS` to 0, and it is the only event that sets `ILL` to 0. That it leaves the
host's lists alone is the model's (assumption 13, DEDUCED), not the rule's. -/
def Obligations.ResetClearsStatus : Prop :=
  (∀ (s : State) (rest : List HostEvent), s.pending = .reset :: rest →
    ∃ t, step s = .next t ∧ t.status.borrow = false ∧ t.status.lte = false ∧ t.status.cmp = 0b00
      ∧ t.status.ill = false ∧ readValue t 0x47 = 0 ∧ t.pending = rest ∧ t.returned = s.returned)
  ∧ (∀ s t : State, step s = .next t → s.status.ill = true → t.status.ill = false → ResetNext s)

/-- After reset `STATUS` is 0 (R146). The data words of `State.reset`, which R147 leaves open, are
assumption 1's choice and are not stated. -/
def Obligations.ResetStateStatus : Prop :=
  State.reset.status.borrow = false ∧ State.reset.status.lte = false
  ∧ State.reset.status.cmp = 0b00 ∧ State.reset.status.ill = false
  ∧ readValue State.reset 0x47 = 0

/-- MODEL'S CHOICE (assumption 2): the 55 data words after a `Reset` event (R147) are free words, each with
an index of its own that no earlier reset used. It holds for every value of those words. -/
def Obligations.ResetDrawsFreshWords : Prop :=
  ∀ (s : State) (rest : List HostEvent), s.pending = .reset :: rest →
    ∃ t, step s = .next t ∧ t.draws = s.draws + 55
      ∧ (∀ (r : EReg) (l : Fin 6),
          (t.elem r)[l] = Config.freeWord (s.draws + (6 * r.val + l.val)) (s.elem r)[l])
      ∧ t.inv = Config.freeWord (s.draws + 48) s.inv ∧ t.ah = Config.freeWord (s.draws + 49) s.ah
      ∧ t.al = Config.freeWord (s.draws + 50) s.al ∧ t.bh = Config.freeWord (s.draws + 51) s.bh
      ∧ t.bl = Config.freeWord (s.draws + 52) s.bl ∧ t.rh = Config.freeWord (s.draws + 53) s.rh
      ∧ t.rl = Config.freeWord (s.draws + 54) s.rl

/-! ### The flags and the scalar registers -/

/-- R21: `BORROW` is written by `SUB` only, `LTE` by `LTE` only, `CMP` by `CMP128` only (`Reset` apart,
R146). -/
def Obligations.FlagWritePolicy : Prop :=
  ∀ s t : State, step s = .next t → ¬ ResetNext s →
    ((∀ rd rs1 rs2, ¬ IssuesNext (.sub rd rs1 rs2) s) → t.status.borrow = s.status.borrow)
    ∧ ((∀ rs1 rs2, ¬ IssuesNext (.lte rs1 rs2) s) → t.status.lte = s.status.lte)
    ∧ (¬ IssuesNext .cmp128 s → t.status.cmp = s.status.cmp)

/-- R131: a step sets `ILL` exactly when the host's next event is one of the listed writes. -/
def Obligations.IllSetExactlyByIllegalWrites : Prop :=
  ∀ s t : State, step s = .next t → s.status.ill = false →
    (t.status.ill = true ↔ IllegalWriteNext s)

/-- `ILL` has no effect on any command: with `ILL = 1` a command does what it does with `ILL = 0` (R24,
R132). -/
def Obligations.IllDoesNotAffectCommands : Prop :=
  ∀ (i : Instr) (s t : State), exec i s = .next t → exec i s.setIll = .next t.setIll

/-- The layout of `STATUS`: bit 0 `BORROW`, bit 1 `LTE`, bits 3:2 `CMP`, bit 4 `ILL`, bits 63:5 read as 0;
a write to it changes no field but `ILL` (R17). -/
def Obligations.StatusLayout : Prop :=
  ∀ s : State,
    (readValue s 0x47).getLsbD 0 = s.status.borrow
    ∧ (readValue s 0x47).getLsbD 1 = s.status.lte
    ∧ (readValue s 0x47).extractLsb' 2 2 = s.status.cmp
    ∧ (readValue s 0x47).getLsbD 4 = s.status.ill
    ∧ (∀ k, 5 ≤ k → (readValue s 0x47).getLsbD k = false)
    ∧ (∀ v, ∃ t, portWrite 0x47 v s = .next t ∧ t.status = { s.status with ill := true })

/-- Every step keeps `STATUS.CMP` one of `0b11`, `0b00`, `0b01`: `0b10` is never written (R19). -/
def Obligations.CmpCodeStaysLegal : Prop :=
  ∀ s t : State, CmpLegal s → step s = .next t → CmpLegal t

/-- `STATUS.CMP` is legal at reset (R146). -/
def Obligations.CmpCodeLegalAtReset : Prop := CmpLegal State.reset

/-- What a command leaves alone: `INV`, `AH`, `AL`, `BH`, `BL` always; `RH`, `RL` unless it is `ADD64`;
every element register but its destination; the host's side (R10, R14 to R16). -/
def Obligations.CommandFrame : Prop :=
  ∀ (i : Instr) (s t : State), exec i s = .next t →
    t.inv = s.inv ∧ t.ah = s.ah ∧ t.al = s.al ∧ t.bh = s.bh ∧ t.bl = s.bl
    ∧ (i ≠ .add64 → t.rh = s.rh ∧ t.rl = s.rl)
    ∧ (∀ r : EReg, i.dest ≠ some r → t.elem r = s.elem r)
    ∧ SameHostSide s t

/-- The port's view of the frame of a command that writes an element: every address outside `E[rd]`'s six
words reads as before, but for `STATUS` after `SUB` (R31, R76, R78, R86, R88, R100). -/
def Obligations.ElementCommandReadFrame : Prop :=
  ∀ (i : Instr) (rd : EReg) (s t : State), i.dest = some rd → exec i s = .next t →
    ∀ a : Addr, (a = 0x47 → i.mnemonic ≠ "SUB") → ¬ (8 * rd.val ≤ a.toNat ∧ a.toNat ≤ 8 * rd.val + 5) →
      readValue t a = readValue s a

/-! ### The commands -/

/-- R64, R65: `CMP128` writes the two's complement code of the order of the two 128-bit values, and
nothing else. -/
def Obligations.Cmp128Result : Prop :=
  encode .cmp128 = 0x00000001
  ∧ ∀ s : State, ∃ t, exec .cmp128 s = .next t
    ∧ (s.ah.toNat * 2 ^ 64 + s.al.toNat < s.bh.toNat * 2 ^ 64 + s.bl.toNat → t.status.cmp = 0b11)
    ∧ (s.ah.toNat * 2 ^ 64 + s.al.toNat = s.bh.toNat * 2 ^ 64 + s.bl.toNat → t.status.cmp = 0b00)
    ∧ (s.bh.toNat * 2 ^ 64 + s.bl.toNat < s.ah.toNat * 2 ^ 64 + s.al.toNat → t.status.cmp = 0b01)
    ∧ t.status = { s.status with cmp := t.status.cmp }
    ∧ SameElems s t ∧ SameScalars s t ∧ SameHostSide s t

/-- R66, R67: `ADD64` writes the sum modulo `2^128` to (`RH`, `RL`), and nothing else. -/
def Obligations.Add64Result : Prop :=
  encode .add64 = 0x00000002
  ∧ ∀ s : State, ∃ t, exec .add64 s = .next t
    ∧ t.rh.toNat * 2 ^ 64 + t.rl.toNat
        = (s.ah.toNat * 2 ^ 64 + s.al.toNat + s.bh.toNat * 2 ^ 64 + s.bl.toNat) % 2 ^ 128
    ∧ t.inv = s.inv ∧ t.ah = s.ah ∧ t.al = s.al ∧ t.bh = s.bh ∧ t.bl = s.bl
    ∧ t.status = s.status ∧ SameElems s t ∧ SameHostSide s t

/-- R75, R76, R111: `ADD` writes the sum modulo `2^384` to `E[rd]`, and nothing else. -/
def Obligations.AddResult : Prop :=
  ∀ (rd rs1 rs2 : EReg) (s : State),
    encode (.add rd rs1 rs2) = BitVec.ofNat 32 (0x3 + rd.val * 16 + rs1.val * 128 + rs2.val * 1024)
    ∧ ∃ t, exec (.add rd rs1 rs2) s = .next t
      ∧ elemVal (t.elem rd) = (elemVal (s.elem rs1) + elemVal (s.elem rs2)) % 2 ^ 384
      ∧ OnlyElemChanged rd s t

/-- R77, R78, R112: `SUB` writes the difference modulo `2^384` to `E[rd]`, and to `BORROW` whether
`val(x) < val(y)`; nothing else. -/
def Obligations.SubResult : Prop :=
  ∀ (rd rs1 rs2 : EReg) (s : State),
    encode (.sub rd rs1 rs2) = BitVec.ofNat 32 (0x4 + rd.val * 16 + rs1.val * 128 + rs2.val * 1024)
    ∧ ∃ t, exec (.sub rd rs1 rs2) s = .next t
      ∧ (elemVal (t.elem rd) : Int)
          = ((elemVal (s.elem rs1) : Int) - (elemVal (s.elem rs2) : Int)) % 2 ^ 384
      ∧ (t.status.borrow = true ↔ elemVal (s.elem rs1) < elemVal (s.elem rs2))
      ∧ t.status = { s.status with borrow := t.status.borrow }
      ∧ SameElemsExcept rd s t ∧ SameScalars s t ∧ SameHostSide s t

/-- R79, R80: `LTE` writes the componentwise predicate to `STATUS.LTE`, and nothing else. -/
def Obligations.LteResult : Prop :=
  ∀ (rs1 rs2 : EReg) (s : State),
    encode (.lte rs1 rs2) = BitVec.ofNat 32 (0x5 + rs1.val * 128 + rs2.val * 1024)
    ∧ ∃ t, exec (.lte rs1 rs2) s = .next t
      ∧ (t.status.lte = true ↔
          ∀ l : Fin 6, (s.elem rs1)[l].toNat ≤ (s.elem rs2)[l].toNat)
      ∧ t.status = { s.status with lte := t.status.lte }
      ∧ SameElems s t ∧ SameScalars s t ∧ SameHostSide s t

/-- R86, R114: `ADDMOD` writes `s − val(m)` if every limb of the wrapped sum `s` is at or above the
modulus's, and `s` otherwise; nothing else. The subtraction never wraps. -/
def Obligations.AddmodResult : Prop :=
  ∀ (rd rs1 rs2 rm : EReg) (s : State),
    let sum := (elemVal (s.elem rs1) + elemVal (s.elem rs2)) % 2 ^ 384
    encode (.addmod rd rs1 rs2 rm)
        = BitVec.ofNat 32 (0x6 + rd.val * 16 + rs1.val * 128 + rs2.val * 1024 + rm.val * 8192)
    ∧ ∃ t, exec (.addmod rd rs1 rs2 rm) s = .next t
      ∧ (Dominates (elemOfNat sum) (s.elem rm) →
          elemVal (s.elem rm) ≤ sum ∧ elemVal (t.elem rd) = sum - elemVal (s.elem rm))
      ∧ (¬ Dominates (elemOfNat sum) (s.elem rm) → elemVal (t.elem rd) = sum)
      ∧ OnlyElemChanged rd s t

/-- R87, R88: `SUBMOD` writes the difference, with the modulus added back once (modulo `2^384`) exactly
when the subtraction borrows; nothing else, `BORROW` included. -/
def Obligations.SubmodResult : Prop :=
  ∀ (rd rs1 rs2 rm : EReg) (s : State),
    encode (.submod rd rs1 rs2 rm)
        = BitVec.ofNat 32 (0x7 + rd.val * 16 + rs1.val * 128 + rs2.val * 1024 + rm.val * 8192)
    ∧ ∃ t, exec (.submod rd rs1 rs2 rm) s = .next t
      ∧ (elemVal (s.elem rs2) ≤ elemVal (s.elem rs1) →
          elemVal (t.elem rd) = elemVal (s.elem rs1) - elemVal (s.elem rs2))
      ∧ (elemVal (s.elem rs1) < elemVal (s.elem rs2) →
          elemVal (t.elem rd) = (elemVal (s.elem rs1) + 2 ^ 384 - elemVal (s.elem rs2)
            + elemVal (s.elem rm)) % 2 ^ 384)
      ∧ OnlyElemChanged rd s t

/-- R100, R102: `MULMOD` completes for every state and writes `mulmod` of the four captured sources to
`E[rd]`, and nothing else. -/
def Obligations.MulmodCompletes : Prop :=
  ∀ (rd rs1 rs2 rm : EReg) (s : State),
    encode (.mulmod rd rs1 rs2 rm)
        = BitVec.ofNat 32 (0x8 + rd.val * 16 + rs1.val * 128 + rs2.val * 1024 + rm.val * 8192)
    ∧ ∃ t, exec (.mulmod rd rs1 rs2 rm) s = .next t
      ∧ t.elem rd = mulmod (s.elem rs1) (s.elem rs2) (s.elem rm) s.inv
      ∧ OnlyElemChanged rd s t

/-- R119: under PRE, `MULMOD` writes `W − val(m)` if every limb of `W` is at or above the modulus's and `W`
otherwise, for a `W` with `W·2^384 ≡ val(x)·val(y) (mod val(m))` and `W ≤ 2·val(m) − 2`. So the value
written is congruent to the Montgomery product and below `2·val(m) − 1`. -/
def Obligations.MulmodMontgomeryValue : Prop :=
  ∀ (rd rs1 rs2 rm : EReg) (s : State),
    MontgomeryPre (s.elem rs1) (s.elem rs2) (s.elem rm) s.inv →
    ∃ t W, exec (.mulmod rd rs1 rs2 rm) s = .next t
      ∧ W * 2 ^ 384 ≡ elemVal (s.elem rs1) * elemVal (s.elem rs2) [MOD elemVal (s.elem rm)]
      ∧ W + 2 ≤ 2 * elemVal (s.elem rm)
      ∧ (Dominates (elemOfNat W) (s.elem rm) →
          elemVal (s.elem rm) ≤ W ∧ elemVal (t.elem rd) = W - elemVal (s.elem rm))
      ∧ (¬ Dominates (elemOfNat W) (s.elem rm) → elemVal (t.elem rd) = W)
      ∧ elemVal (t.elem rd) * 2 ^ 384 ≡ elemVal (s.elem rs1) * elemVal (s.elem rs2) [MOD elemVal (s.elem rm)]
      ∧ elemVal (t.elem rd) + 1 < 2 * elemVal (s.elem rm)

/-! ### The functions the commands are built from -/

/-- R60 to R63: the limb primitives are exact. -/
def Obligations.LimbPrimitivesExact : Prop :=
  (∀ (a b : Limb) (cin : Bool),
    (adc64 a b cin).1.toNat = (a.toNat + b.toNat + cin.toNat) % 2 ^ 64
    ∧ (adc64 a b cin).2.toNat = (a.toNat + b.toNat + cin.toNat) / 2 ^ 64)
  ∧ (∀ (a b : Limb) (bin : Bool),
    ((sbb64 a b bin).1.toNat : Int) = ((a.toNat : Int) - b.toNat - bin.toNat) % 2 ^ 64
    ∧ ((sbb64 a b bin).2 = true ↔ (a.toNat : Int) - b.toNat - bin.toNat < 0))
  ∧ (∀ a b : Limb, (mul64 a b).hi.toNat * 2 ^ 64 + (mul64 a b).lo.toNat = a.toNat * b.toNat
      ∧ (mul64 a b).hi.toNat ≤ 2 ^ 64 - 2)
  ∧ (∀ a b : Limb, (mullo64 a b).toNat = a.toNat * b.toNat % 2 ^ 64 ∧ mullo64 a b = (mul64 a b).lo)
  ∧ (∀ a b : Limb, (addlo64 a b).toNat = (a.toNat + b.toNat) % 2 ^ 64
      ∧ addlo64 a b = (adc64 a b false).1)

/-- R110: subtracting what was added gives the first operand back; the borrow says whether the addition
wrapped. -/
def Obligations.SubUndoesAdd : Prop :=
  ∀ x y : Elem, (sub384 (add384 x y) y).1 = x
    ∧ ((sub384 (add384 x y) y).2 = true ↔ 2 ^ 384 ≤ elemVal x + elemVal y)

/-- R113: the predicate implies the numeric order and is false as soon as one limb is above its
counterpart; it is reflexive, transitive and antisymmetric but not total; it agrees with the numeric order
on a pair exactly when the pair is comparable limb by limb. -/
def Obligations.LteIsProductOrder : Prop :=
  (∀ a c : Elem, lteElem a c = true → elemVal a ≤ elemVal c)
  ∧ (∀ (a b : Elem) (l : Fin 6), b[l].toNat < a[l].toNat → lteElem a b = false)
  ∧ (∀ a : Elem, lteElem a a = true)
  ∧ (∀ a b c : Elem, lteElem a b = true → lteElem b c = true → lteElem a c = true)
  ∧ (∀ a b : Elem, lteElem a b = true → lteElem b a = true → a = b)
  ∧ (∃ a c : Elem, elemVal a ≤ elemVal c ∧ lteElem a c = false ∧ lteElem c a = false)
  ∧ (∀ a c : Elem,
      ((lteElem a c = true ↔ elemVal a ≤ elemVal c) ∧ (lteElem c a = true ↔ elemVal c ≤ elemVal a))
        ↔ (lteElem a c = true ∨ lteElem c a = true))

/-- The correction of `ADDMOD` and `MULMOD` never borrows, and adding the modulus back undoes it (R85,
R99). -/
def Obligations.CorrectionNeverBorrows : Prop :=
  ∀ m o : Elem, lteElem m o = true →
    (sub384 o m).2 = false ∧ add384 (correct m o) m = o ∧ elemVal (correct m o) + elemVal m = elemVal o

/-- R115: for reduced operands with sum `t`: below `2^384` the result is congruent to `t`, is `t` or `t` less
the modulus, and is reduced exactly when `t` is or dominates the modulus; otherwise it is `t`, at or above
the modulus. From `2^384` on, which needs a modulus above `2^383`, it is not even congruent to `t`. Closure
does fail, at the rule's counterexample, and the borrow of a subtraction of the modulus tells. -/
def Obligations.AddmodClosureCondition : Prop :=
  (∀ x y m : Elem, Reduced x m → Reduced y m →
    let t := elemVal x + elemVal y
    (t < 2 ^ 384 →
      elemVal (addmod x y m) ≡ t [MOD elemVal m]
      ∧ (elemVal (addmod x y m) = t ∨ elemVal (addmod x y m) + elemVal m = t)
      ∧ (Reduced (addmod x y m) m ↔ t < elemVal m ∨ Dominates (elemOfNat t) m)
      ∧ (elemVal m ≤ t → ¬ Dominates (elemOfNat t) m →
          elemVal (addmod x y m) = t ∧ t < 2 * elemVal m))
    ∧ (2 ^ 384 ≤ t → 2 ^ 383 < elemVal m ∧ ¬ elemVal (addmod x y m) ≡ t [MOD elemVal m])
    ∧ ((sub384 (addmod x y m) m).2 = false ↔ ¬ Reduced (addmod x y m) m))
  ∧ Reduced #v[0, 1, 0, 0, 0, 0] #v[5, 1, 0, 0, 0, 0]
  ∧ addmod #v[0, 1, 0, 0, 0, 0] #v[0, 1, 0, 0, 0, 0] #v[5, 1, 0, 0, 0, 0] = #v[0, 2, 0, 0, 0, 0]
  ∧ ¬ Reduced #v[0, 2, 0, 0, 0, 0] #v[5, 1, 0, 0, 0, 0]

/-- R116: for reduced operands `SUBMOD`'s function is the difference modulo the modulus, reduced: without a
correction when `val(y) ≤ val(x)`, and with the modulus added back after a borrow otherwise. -/
def Obligations.SubmodIsModularDifference : Prop :=
  ∀ x y m : Elem, Reduced x m → Reduced y m →
    (elemVal (submod x y m) : Int) = ((elemVal x : Int) - elemVal y) % (elemVal m : Int)
    ∧ Reduced (submod x y m) m
    ∧ (elemVal y ≤ elemVal x → (sub384 x y).2 = false ∧ elemVal (submod x y m) + elemVal y = elemVal x)
    ∧ (elemVal x < elemVal y → (sub384 x y).2 = true
        ∧ elemVal (submod x y m) + elemVal y = elemVal x + elemVal m ∧ 0 < elemVal (submod x y m))

/-- R117: `ADDMOD` commutes, whatever the operands. -/
def Obligations.AddmodCommutes : Prop :=
  ∀ (rd rs1 rs2 rm : EReg) (s : State),
    exec (.addmod rd rs1 rs2 rm) s = exec (.addmod rd rs2 rs1 rm) s

/-- R118: `ADDMOD`'s function is associative when operands and all four results are reduced and the
modulus is at most `2^383`: both sides are then the residue of the sum of the three. For reduced operands
alone it is not: the rule's counterexample. -/
def Obligations.AddmodAssociativityCondition : Prop :=
  (∀ x y z m : Elem, Reduced x m → Reduced y m → Reduced z m → elemVal m ≤ 2 ^ 383 →
    Reduced (addmod x y m) m → Reduced (addmod y z m) m →
    Reduced (addmod (addmod x y m) z m) m → Reduced (addmod x (addmod y z m) m) m →
    addmod (addmod x y m) z m = addmod x (addmod y z m) m
    ∧ elemVal (addmod (addmod x y m) z m) = (elemVal x + elemVal y + elemVal z) % elemVal m)
  ∧ (let m : Elem := #v[5, 1, 0, 0, 0, 0]
     let x : Elem := #v[0, 1, 0, 0, 0, 0]
     let z : Elem := #v[0xFFFFFFFFFFFFFFFF, 0, 0, 0, 0, 0]
     Reduced x m ∧ Reduced z m ∧ elemVal m ≤ 2 ^ 383
     ∧ addmod (addmod x x m) z m = #v[0xFFFFFFFFFFFFFFFA, 1, 0, 0, 0, 0]
     ∧ addmod x (addmod x z m) m = #v[0xFFFFFFFFFFFFFFF5, 0, 0, 0, 0, 0])

/-- R94, R95: `P` and `T` are exact, and `w = 1` exactly when the true sum `P + T` is `2^128` or more. -/
def Obligations.CarryEscapeDetection : Prop :=
  ∀ (x y m : Elem) (u carry a : Limb) (i j : Fin 6),
    let P := partialSum x y i j carry
    let T := reductionTerm m u j a
    let S := add128 P T
    P.val = x[i].toNat * y[j].toNat + carry.toNat
    ∧ T.val = u.toNat * m[j].toNat + a.toNat
    ∧ S.val = (P.val + T.val) % 2 ^ 128
    ∧ (carryEscaped S P = true ↔ 2 ^ 128 ≤ P.val + T.val)

/-- R96: the ripple adds 1, modulo its width, to the accumulator from limb `s` on, and touches no limb
below. -/
def Obligations.RippleAddsOne : Prop :=
  ∀ (s : Nat) (A : Accumulator), s ≤ 12 →
    (∀ k : Fin 13, k.val < s → (ripple s A)[k] = A[k])
    ∧ upperVal (ripple s A) s = (upperVal A s + 1) % 2 ^ (64 * (13 - s))

/-- `mulmod`, made of limb operations (R91 to R99), is the integer listing of `43_montgomery.md` section 3,
for all operands, reduced or not. -/
def Obligations.MulmodIsListing : Prop :=
  ∀ (x y m : Elem) (inv : Limb), mulmod x y m inv = listing x y m inv

/-- R103: `A[12]` is at most the number of inner iterations so far, so at most 36 and never saturated. -/
def Obligations.AccumulatorTopLimbBound : Prop :=
  ∀ (x y m : Elem) (inv : Limb),
    (∀ (n : Fin 6) (k : Nat), k ≤ 6 → (accWithinRow x y m inv n k)[12].toNat ≤ 6 * n.val + k)
    ∧ (accumulate x y m inv)[12].toNat ≤ 36

/-- R104: under PRE the accumulator after row 5 is zero in limbs 0 to 5 and 12, and its limbs 6 to 11 hold
a `W` with `W·2^384 ≡ val(x)·val(y) (mod val(m))` and `W ≤ 2·val(m) − 2`. -/
def Obligations.MontgomeryAccumulator : Prop :=
  ∀ (x y m : Elem) (inv : Limb), MontgomeryPre x y m inv →
    (∀ k : Fin 13, (k.val < 6 ∨ k.val = 12) → (accumulate x y m inv)[k] = 0)
    ∧ elemVal (copyOut (accumulate x y m inv)) * 2 ^ 384 ≡ elemVal x * elemVal y [MOD elemVal m]
    ∧ elemVal (copyOut (accumulate x y m inv)) + 2 ≤ 2 * elemVal m

/-- R121: under PRE the result is reduced exactly when the uncorrected value `W` is or dominates the
modulus; otherwise it is `W`, at or above the modulus and at most `2·val(m) − 2`, and still congruent to the
Montgomery product. -/
def Obligations.MulmodReductionCondition : Prop :=
  ∀ (x y m : Elem) (inv : Limb), MontgomeryPre x y m inv →
    let W := copyOut (accumulate x y m inv)
    let r := mulmod x y m inv
    (Reduced r m ↔ Reduced W m ∨ Dominates W m)
    ∧ (¬ Reduced r m → r = W ∧ elemVal m ≤ elemVal W ∧ elemVal W + 2 ≤ 2 * elemVal m
        ∧ elemVal W * 2 ^ 384 ≡ elemVal x * elemVal y [MOD elemVal m])

/-- R120: under PRE, multiplying by `2^384 mod val(m)` gives the operand back modulo the modulus, and
exactly whenever the result is reduced; `2^768 mod val(m)` converts into Montgomery form and 1 back. -/
def Obligations.MontgomeryRoundTrip : Prop :=
  ∀ (a m : Elem) (inv : Limb),
    (MontgomeryPre a (elemOfNat (2 ^ 384 % elemVal m)) m inv →
      elemVal (mulmod a (elemOfNat (2 ^ 384 % elemVal m)) m inv) ≡ elemVal a [MOD elemVal m]
      ∧ (Reduced (mulmod a (elemOfNat (2 ^ 384 % elemVal m)) m inv) m →
          mulmod a (elemOfNat (2 ^ 384 % elemVal m)) m inv = a))
    ∧ (MontgomeryPre a (elemOfNat (2 ^ 768 % elemVal m)) m inv →
        elemVal (mulmod a (elemOfNat (2 ^ 768 % elemVal m)) m inv)
          ≡ elemVal a * 2 ^ 384 [MOD elemVal m])
    ∧ (MontgomeryPre a #v[1, 0, 0, 0, 0, 0] m inv →
        elemVal (mulmod a #v[1, 0, 0, 0, 0, 0] m inv) * 2 ^ 384 ≡ elemVal a [MOD elemVal m])

/-- A zero operand gives zero, whatever the modulus and `INV` (R100 (a)). -/
def Obligations.MulmodZeroOperand : Prop :=
  ∀ (x y m : Elem) (inv : Limb), elemVal x = 0 ∨ elemVal y = 0 → elemVal (mulmod x y m inv) = 0

/-- R125: above `2^383` the product is lost for some reduced operands and a correct `INV`. -/
def Obligations.LargeModulusLosesProduct : Prop :=
  ∃ (x y m : Elem) (inv : Limb), InverseConstant inv m ∧ Reduced x m ∧ Reduced y m
    ∧ 2 ^ 383 < elemVal m
    ∧ ¬ elemVal (mulmod x y m inv) * 2 ^ 384 ≡ elemVal x * elemVal y [MOD elemVal m]

/-! ### Properties of every command -/

/-- R123: the value a command writes and its flags are the same whatever its destination register, one of
its sources included. -/
def Obligations.AliasingSafe : Prop :=
  ∀ (i : Instr) (rd rd' : EReg) (s t t' : State), i.dest = some rd → exec i s = .next t →
    exec (i.withDest rd') s = .next t' →
    t'.elem rd' = t.elem rd ∧ t'.status = t.status

/-- R124: issuing a command again changes nothing, provided its destination is none of its sources. -/
def Obligations.CommandsIdempotent : Prop :=
  ∀ (i : Instr) (s t : State), (∀ rd, i.dest = some rd → rd ∉ i.sources) → exec i s = .next t →
    exec i t = .next t

/-- What a command writes depends on its own sources only: the element registers it names, `INV` for
`MULMOD`, the two pairs for the helpers (R22, R53). -/
def Obligations.ResultsDependOnSourcesOnly : Prop :=
  ∀ (i : Instr) (s s' t t' : State),
    (∀ r ∈ i.sources, s.elem r = s'.elem r) →
    (i.mnemonic = "MULMOD" → s.inv = s'.inv) →
    (i = .cmp128 ∨ i = .add64 → s.ah = s'.ah ∧ s.al = s'.al ∧ s.bh = s'.bh ∧ s.bl = s'.bl) →
    exec i s = .next t → exec i s' = .next t' →
    (∀ rd, i.dest = some rd → t.elem rd = t'.elem rd)
    ∧ (i = .add64 → t.rh = t'.rh ∧ t.rl = t'.rl)
    ∧ (i = .cmp128 → t.status.cmp = t'.status.cmp)
    ∧ (i.mnemonic = "SUB" → t.status.borrow = t'.status.borrow)
    ∧ (i.mnemonic = "LTE" → t.status.lte = t'.status.lte)
end

