-- ==== Sys2Proof/Laws/Limb.lean ====
section
/-! SUPPORT. What each limb primitive and double-width helper computes, said once. -/

namespace Sys2Proof.Machine

theorem adc64_exact (a b : Limb) (cin : Bool) :
    (adc64 a b cin).1.toNat + (adc64 a b cin).2.toNat * 2 ^ 64 = a.toNat + b.toNat + cin.toNat := by
  have ha := a.isLt
  have hb := b.isLt
  have hc : cin.toNat ≤ 1 := Bool.toNat_le cin
  simp only [adc64, BitVec.toNat_ofNat]
  by_cases h : 2 ^ 64 ≤ a.toNat + b.toNat + cin.toNat
  · simp only [h, decide_true, Bool.toNat_true]; omega
  · simp only [h, decide_false, Bool.toNat_false]; omega

theorem sbb64_exact (a b : Limb) (bin : Bool) :
    ((sbb64 a b bin).1.toNat : Int) - (sbb64 a b bin).2.toNat * 2 ^ 64
      = (a.toNat : Int) - b.toNat - bin.toNat := by
  have ha := a.isLt
  have hb := b.isLt
  have hc : bin.toNat ≤ 1 := Bool.toNat_le bin
  simp only [sbb64, BitVec.toNat_ofInt]
  by_cases h : (a.toNat : Int) - b.toNat - bin.toNat < 0
  · simp only [h, decide_true, Bool.toNat_true]; omega
  · simp only [h, decide_false, Bool.toNat_false]; omega

theorem mul64_exact (a b : Limb) : (mul64 a b).val = a.toNat * b.toNat := by
  have ha := a.isLt
  have hb := b.isLt
  have hlt : a.toNat * b.toNat < 2 ^ 64 * 2 ^ 64 := Nat.mul_lt_mul'' ha hb
  simp only [mul64, Wide.val, BitVec.toNat_ofNat]
  generalize a.toNat * b.toNat = p at hlt
  omega

theorem Wide.val_lt (w : Wide) : w.val < 2 ^ 128 := by
  have := w.hi.isLt
  have := w.lo.isLt
  simp only [Wide.val]; omega

theorem Wide.val_ofLimb (a : Limb) : (Wide.ofLimb a).val = a.toNat := by
  simp [Wide.val, Wide.ofLimb]

theorem add128_val (a b : Wide) : (add128 a b).val = (a.val + b.val) % 2 ^ 128 := by
  have h1 := adc64_exact a.lo b.lo false
  have h2 := adc64_exact a.hi b.hi (adc64 a.lo b.lo false).2
  have h3 : (adc64 a.hi b.hi (adc64 a.lo b.lo false).2).2.toNat ≤ 1 := Bool.toNat_le _
  have h4 := (adc64 a.hi b.hi (adc64 a.lo b.lo false).2).1.isLt
  have h5 := (adc64 a.lo b.lo false).1.isLt
  simp only [Bool.toNat_false] at h1
  simp only [add128, Wide.val]
  omega

/-- The comparator is the numeric order of the two 128-bit values (R64). -/
theorem cmp128_eq_compare (x y : Wide) : cmp128 x y = compare x.val y.val := by
  have h1 := x.hi.isLt
  have h2 := x.lo.isLt
  have h3 := y.hi.isLt
  have h4 := y.lo.isLt
  simp only [cmp128, Wide.val, ← BitVec.toNat_inj, BitVec.lt_def]
  symm
  split
  · rw [Nat.compare_eq_eq]; omega
  · split
    · rw [Nat.compare_eq_lt]; omega
    · split
      · rw [Nat.compare_eq_gt]; omega
      · split
        · rw [Nat.compare_eq_lt]; omega
        · rw [Nat.compare_eq_gt]; omega

theorem cmp128_lt_iff (x y : Wide) : cmp128 x y = .lt ↔ x.val < y.val := by
  rw [cmp128_eq_compare, Nat.compare_eq_lt]

end Sys2Proof.Machine
end

