-- ==== Sys2Proof/Laws/Element.lean ====
section
/-! SUPPORT. The value of what each 384-bit function computes. -/

namespace Sys2Proof.Machine

theorem elemVal_lt (x : Elem) : elemVal x < 2 ^ 384 := by
  have := x[0].isLt
  have := x[1].isLt
  have := x[2].isLt
  have := x[3].isLt
  have := x[4].isLt
  have := x[5].isLt
  simp only [elemVal]; omega

/-- Two elements of the same value are the same element (R11). -/
theorem elemVal_injective {x y : Elem} (h : elemVal x = elemVal y) : x = y := by
  have := x[0].isLt
  have := x[1].isLt
  have := x[2].isLt
  have := x[3].isLt
  have := x[4].isLt
  have := y[0].isLt
  have := y[1].isLt
  have := y[2].isLt
  have := y[3].isLt
  have := y[4].isLt
  simp only [elemVal] at h
  apply Vector.ext
  intro l hl
  apply BitVec.eq_of_toNat_eq
  rcases l with _ | _ | _ | _ | _ | _ | l <;> first | omega | (simp only [Nat.zero_add, Nat.reduceAdd]; omega)

theorem add384_val (x y : Elem) : elemVal (add384 x y) = (elemVal x + elemVal y) % 2 ^ 384 := by
  have e0 := adc64_exact x[0] y[0] false
  generalize h0 : adc64 x[0] y[0] false = s0 at e0
  have e1 := adc64_exact x[1] y[1] s0.2
  generalize h1 : adc64 x[1] y[1] s0.2 = s1 at e1
  have e2 := adc64_exact x[2] y[2] s1.2
  generalize h2 : adc64 x[2] y[2] s1.2 = s2 at e2
  have e3 := adc64_exact x[3] y[3] s2.2
  generalize h3 : adc64 x[3] y[3] s2.2 = s3 at e3
  have e4 := adc64_exact x[4] y[4] s3.2
  generalize h4 : adc64 x[4] y[4] s3.2 = s4 at e4
  have e5 := adc64_exact x[5] y[5] s4.2
  generalize h5 : adc64 x[5] y[5] s4.2 = s5 at e5
  have hv : elemVal (add384 x y) = elemVal #v[s0.1, s1.1, s2.1, s3.1, s4.1, s5.1] := by
    simp only [add384, h0, h1, h2, h3, h4, h5]
  have hlt := elemVal_lt (add384 x y)
  rw [hv] at hlt ⊢
  simp only [elemVal, Vector.getElem_mk, List.getElem_toArray, List.getElem_cons_zero,
    List.getElem_cons_succ, Bool.toNat_false] at *
  omega

/-- The exact difference: the result less the borrow at weight `2^384` (R77). -/
theorem sub384_exact (x y : Elem) :
    (elemVal (sub384 x y).1 : Int) - (sub384 x y).2.toNat * 2 ^ 384 = (elemVal x : Int) - elemVal y := by
  have e0 := sbb64_exact x[0] y[0] false
  generalize h0 : sbb64 x[0] y[0] false = d0 at e0
  have e1 := sbb64_exact x[1] y[1] d0.2
  generalize h1 : sbb64 x[1] y[1] d0.2 = d1 at e1
  have e2 := sbb64_exact x[2] y[2] d1.2
  generalize h2 : sbb64 x[2] y[2] d1.2 = d2 at e2
  have e3 := sbb64_exact x[3] y[3] d2.2
  generalize h3 : sbb64 x[3] y[3] d2.2 = d3 at e3
  have e4 := sbb64_exact x[4] y[4] d3.2
  generalize h4 : sbb64 x[4] y[4] d3.2 = d4 at e4
  have e5 := sbb64_exact x[5] y[5] d4.2
  generalize h5 : sbb64 x[5] y[5] d4.2 = d5 at e5
  have hv : sub384 x y = (#v[d0.1, d1.1, d2.1, d3.1, d4.1, d5.1], d5.2) := by
    simp only [sub384, h0, h1, h2, h3, h4, h5]
  rw [hv]
  simp only [elemVal, Vector.getElem_mk, List.getElem_toArray, List.getElem_cons_zero,
    List.getElem_cons_succ, Bool.toNat_false] at *
  omega

/-- The borrow is the true numeric comparison (R77). -/
theorem sub384_borrow (x y : Elem) : (sub384 x y).2 = decide (elemVal x < elemVal y) := by
  have h := sub384_exact x y
  have h1 := elemVal_lt (sub384 x y).1
  have h2 := elemVal_lt x
  have h3 := elemVal_lt y
  cases hb : (sub384 x y).2 <;> simp only [hb, Bool.toNat_false, Bool.toNat_true] at h
  · symm; simp only [decide_eq_false_iff_not]; omega
  · symm; simp only [decide_eq_true_eq]; omega

/-- The difference is taken modulo `2^384` (R77). -/
theorem sub384_val (x y : Elem) :
    elemVal (sub384 x y).1 = (elemVal x + 2 ^ 384 - elemVal y) % 2 ^ 384 := by
  have h := sub384_exact x y
  have h1 := elemVal_lt (sub384 x y).1
  have h2 := elemVal_lt x
  have h3 := elemVal_lt y
  have h4 : (sub384 x y).2.toNat ≤ 1 := Bool.toNat_le _
  omega

theorem lteElem_iff (x y : Elem) : lteElem x y = true ↔ ∀ l : Fin 6, x[l].toNat ≤ y[l].toNat := by
  simp only [lteElem, Bool.and_eq_true, decide_eq_true_eq, BitVec.le_def]
  constructor
  · intro h l
    match l with
    | 0 => exact h.1.1.1.1.1
    | 1 => exact h.1.1.1.1.2
    | 2 => exact h.1.1.1.2
    | 3 => exact h.1.1.2
    | 4 => exact h.1.2
    | 5 => exact h.2
  · intro h
    exact ⟨⟨⟨⟨⟨h 0, h 1⟩, h 2⟩, h 3⟩, h 4⟩, h 5⟩

/-- The componentwise predicate implies the numeric order (R113). -/
theorem elemVal_le_of_lteElem {x y : Elem} (h : lteElem x y = true) : elemVal x ≤ elemVal y := by
  rw [lteElem_iff] at h
  have h0 : x[0].toNat ≤ y[0].toNat := h 0
  have h1 : x[1].toNat ≤ y[1].toNat := h 1
  have h2 : x[2].toNat ≤ y[2].toNat := h 2
  have h3 : x[3].toNat ≤ y[3].toNat := h 3
  have h4 : x[4].toNat ≤ y[4].toNat := h 4
  have h5 : x[5].toNat ≤ y[5].toNat := h 5
  simp only [elemVal]; omega

/-- A correction subtracts the modulus exactly when the predicate holds, and then never borrows (R85,
R99). -/
theorem correct_val (m o : Elem) :
    elemVal (correct m o) = if lteElem m o then elemVal o - elemVal m else elemVal o := by
  unfold correct
  split
  · next h =>
    have hle := elemVal_le_of_lteElem h
    have h1 := elemVal_lt o
    rw [sub384_val]
    have := elemVal_lt m
    omega
  · rfl

theorem submod_val (x y m : Elem) :
    elemVal (submod x y m)
      = if elemVal x < elemVal y then (elemVal x + 2 ^ 384 - elemVal y + elemVal m) % 2 ^ 384
        else elemVal x - elemVal y := by
  have h := sub384_val x y
  have h2 := elemVal_lt x
  have h3 := elemVal_lt y
  simp only [submod, sub384_borrow, decide_eq_true_eq]
  split
  · rw [add384_val, h]; omega
  · rw [h]; omega

theorem elemOfNat_get (v : Nat) (l : Nat) (hl : l < 6) :
    (elemOfNat v)[l].toNat = v / 2 ^ (64 * l) % 2 ^ 64 := by
  simp [elemOfNat]

/-- `limbs` is the inverse of `val` below `2^384` (`00_scope.md` section 4). -/
theorem elemVal_elemOfNat (v : Nat) (h : v < 2 ^ 384) : elemVal (elemOfNat v) = v := by
  simp only [elemVal, elemOfNat_get, Nat.reduceMul]
  omega

theorem elemOfNat_elemVal (x : Elem) : elemOfNat (elemVal x) = x :=
  elemVal_injective (elemVal_elemOfNat _ (elemVal_lt x))

theorem add384_comm (x y : Elem) : add384 x y = add384 y x :=
  elemVal_injective (by rw [add384_val, add384_val, Nat.add_comm])

end Sys2Proof.Machine
end

