-- ==== Sys2Proof/Laws/Cios.lean ====
section
/-! SUPPORT. The steps of the Montgomery multiplication in terms of the accumulator's value (R94 to R97,
R103, R104). -/

namespace Sys2Proof.Machine

/-- The weight of limb `k + n` against that of limb `k`. -/
theorem weight_add (k n : Nat) : 2 ^ (64 * (k + n)) = 2 ^ (64 * n) * 2 ^ (64 * k) := by
  rw [Nat.mul_add, Nat.pow_add, Nat.mul_comm]

/-- The accumulator's value as thirteen terms. -/
theorem accVal_eq (A : Accumulator) :
    accVal A = A[0].toNat + A[1].toNat * 2 ^ 64 + A[2].toNat * 2 ^ 128 + A[3].toNat * 2 ^ 192
      + A[4].toNat * 2 ^ 256 + A[5].toNat * 2 ^ 320 + A[6].toNat * 2 ^ 384 + A[7].toNat * 2 ^ 448
      + A[8].toNat * 2 ^ 512 + A[9].toNat * 2 ^ 576 + A[10].toNat * 2 ^ 640 + A[11].toNat * 2 ^ 704
      + A[12].toNat * 2 ^ 768 := by
  have h : accVal A = A[0].toNat * 2 ^ (64 * 0) + A[1].toNat * 2 ^ (64 * 1) + A[2].toNat * 2 ^ (64 * 2)
      + A[3].toNat * 2 ^ (64 * 3) + A[4].toNat * 2 ^ (64 * 4) + A[5].toNat * 2 ^ (64 * 5)
      + A[6].toNat * 2 ^ (64 * 6) + A[7].toNat * 2 ^ (64 * 7) + A[8].toNat * 2 ^ (64 * 8)
      + A[9].toNat * 2 ^ (64 * 9) + A[10].toNat * 2 ^ (64 * 10) + A[11].toNat * 2 ^ (64 * 11)
      + A[12].toNat * 2 ^ (64 * 12) := by
    simp only [accVal, Fin.sum_univ_castSucc, Finset.univ_eq_empty, Finset.sum_empty, Nat.zero_add]
    rfl
  rw [h]
  simp only [Nat.reduceMul, Nat.pow_zero, Nat.mul_one]

/-- Writing one limb moves the value by the difference at that limb's weight. -/
theorem accVal_set (A : Accumulator) (k : Nat) (hk : k < 13) (v : Limb) :
    accVal (A.set k v) + A[k].toNat * 2 ^ (64 * k) = accVal A + v.toNat * 2 ^ (64 * k) := by
  have hsum : ∀ B : Accumulator, accVal B = B[k].toNat * 2 ^ (64 * k)
      + ∑ l ∈ Finset.univ.erase (⟨k, hk⟩ : Fin 13), B[l].toNat * 2 ^ (64 * l.val) := by
    intro B
    exact (Finset.add_sum_erase Finset.univ (fun l : Fin 13 => B[l].toNat * 2 ^ (64 * l.val))
      (Finset.mem_univ (⟨k, hk⟩ : Fin 13))).symm
  have hrest : ∑ l ∈ Finset.univ.erase (⟨k, hk⟩ : Fin 13), (A.set k v)[l].toNat * 2 ^ (64 * l.val)
      = ∑ l ∈ Finset.univ.erase (⟨k, hk⟩ : Fin 13), A[l].toNat * 2 ^ (64 * l.val) := by
    apply Finset.sum_congr rfl
    intro l hl
    have hne : k ≠ l.val := fun e => (Finset.mem_erase.mp hl).1 (Fin.ext e.symm)
    simp [Vector.getElem_set_ne _ _ hne]
  rw [hsum (A.set k v), hsum A, hrest]
  simp only [Vector.getElem_set_self]
  omega

/-- Limb `k` of the accumulator is digit `k` of its value. -/
theorem accVal_digit (A : Accumulator) (k : Nat) (hk : k < 13) :
    accVal A / 2 ^ (64 * k) % 2 ^ 64 = A[k].toNat := by
  have := A[0].isLt
  have := A[1].isLt
  have := A[2].isLt
  have := A[3].isLt
  have := A[4].isLt
  have := A[5].isLt
  have := A[6].isLt
  have := A[7].isLt
  have := A[8].isLt
  have := A[9].isLt
  have := A[10].isLt
  have := A[11].isLt
  have := A[12].isLt
  rw [accVal_eq]
  rcases k with _ | _ | _ | _ | _ | _ | _ | _ | _ | _ | _ | _ | _ | k <;>
    first | omega | (simp only [Nat.zero_add, Nat.reduceAdd, Nat.reduceMul]; omega)

theorem saturated_toNat : saturated.toNat = 2 ^ 64 - 1 := by decide

theorem toNat_add_one_of_ne_saturated {a : Limb} (h : a ≠ saturated) :
    (a + 1).toNat = a.toNat + 1 := by
  have h1 : a.toNat ≠ saturated.toNat := fun e => h (BitVec.eq_of_toNat_eq e)
  rw [saturated_toNat] at h1
  have := a.isLt
  have one : (1 : Limb).toNat = 1 := rfl
  rw [BitVec.toNat_add, one]
  omega

/-- Limbs below the start are not touched by the ripple (R96). -/
theorem rippleLoop_low (fuel : Nat) : ∀ (k : Nat) (A : Accumulator) (l : Nat) (hl : l < 13), l < k →
    (rippleLoop fuel k A)[l] = A[l] := by
  induction fuel with
  | zero => intro k A l hl _; rfl
  | succ fuel ih =>
    intro k A l hl hlk
    unfold rippleLoop
    split
    · next hk =>
      split
      · rw [ih _ _ _ hl (by omega), Vector.getElem_set_ne _ _ (by omega)]
      · rw [Vector.getElem_set_ne _ _ (by omega)]
    · rfl

/-- The ripple adds one unit of its first limb, if some limb from there on is not saturated (R96). -/
theorem rippleLoop_val (fuel : Nat) : ∀ (k : Nat) (A : Accumulator), k + fuel = 13 →
    (∃ l, ∃ h : l < 13, k ≤ l ∧ A[l] ≠ saturated) →
    accVal (rippleLoop fuel k A) = accVal A + 2 ^ (64 * k) := by
  induction fuel with
  | zero => rintro k A hk ⟨l, hl, hkl, _⟩; omega
  | succ fuel ih =>
    rintro k A hk ⟨l, hl, hkl, hne⟩
    have hk13 : k < 13 := by omega
    unfold rippleLoop
    rw [dif_pos hk13]
    split
    · next hsat =>
      have hlk : l ≠ k := by rintro rfl; exact hne hsat
      rw [ih (k + 1) (A.set k 0) (by omega)
        ⟨l, hl, by omega, by rw [Vector.getElem_set_ne _ _ (Ne.symm hlk)]; exact hne⟩]
      have hset := accVal_set A k hk13 0
      rw [hsat, saturated_toNat] at hset
      have zero : (0 : Limb).toNat = 0 := rfl
      rw [zero, Nat.zero_mul, Nat.add_zero] at hset
      have hpow := weight_add k 1
      rw [Nat.mul_one] at hpow
      rw [hpow]
      generalize 2 ^ (64 * k) = B at *
      omega
    · next hns =>
      have hset := accVal_set A k hk13 (A[k] + 1)
      rw [toNat_add_one_of_ne_saturated hns, Nat.add_mul, Nat.one_mul] at hset
      generalize 2 ^ (64 * k) = B at *
      omega

/-- The ripple raises the top limb by at most one, if it was not saturated (R103). -/
theorem rippleLoop_top (fuel : Nat) : ∀ (k : Nat) (A : Accumulator), A[12] ≠ saturated →
    (rippleLoop fuel k A)[12].toNat ≤ A[12].toNat + 1 := by
  induction fuel with
  | zero => intro k A _; exact Nat.le_succ _
  | succ fuel ih =>
    intro k A hne
    unfold rippleLoop
    split
    · next hk =>
      split
      · next hsat =>
        have hk12 : k ≠ 12 := by rintro rfl; exact hne hsat
        have h12 : (A.set k 0)[12] = A[12] := Vector.getElem_set_ne _ _ hk12
        have := ih (k + 1) (A.set k 0) (by rw [h12]; exact hne)
        rw [h12] at this
        exact this
      · next hns =>
        by_cases hk12 : k = 12
        · subst hk12
          rw [Vector.getElem_set_self, toNat_add_one_of_ne_saturated hne]
        · rw [Vector.getElem_set_ne _ _ hk12]; omega
    · omega

theorem ripple_val (s : Nat) (hs : s ≤ 12) (A : Accumulator) (hne : A[12] ≠ saturated) :
    accVal (ripple s A) = accVal A + 2 ^ (64 * s) :=
  rippleLoop_val (13 - s) s A (by omega) ⟨12, by omega, hs, hne⟩

/-- `P` is exact (R94). -/
theorem partialSum_val (x y : Elem) (i j : Fin 6) (carry : Limb) :
    (partialSum x y i j carry).val = x[i].toNat * y[j].toNat + carry.toNat := by
  have hx := x[i].isLt
  have hy := y[j].isLt
  have hc := carry.isLt
  have hp : x[i].toNat * y[j].toNat ≤ (2 ^ 64 - 1) * (2 ^ 64 - 1) := Nat.mul_le_mul (by omega) (by omega)
  rw [partialSum, add128_val, mul64_exact, Wide.val_ofLimb]
  generalize x[i].toNat * y[j].toNat = p at *
  omega

/-- `T` is exact (R94). -/
theorem reductionTerm_val (m : Elem) (u : Limb) (j : Fin 6) (a : Limb) :
    (reductionTerm m u j a).val = u.toNat * m[j].toNat + a.toNat := by
  have hx := u.isLt
  have hy := m[j].isLt
  have hc := a.isLt
  have hp : u.toNat * m[j].toNat ≤ (2 ^ 64 - 1) * (2 ^ 64 - 1) := Nat.mul_le_mul (by omega) (by omega)
  rw [reductionTerm, add128_val, mul64_exact, Wide.val_ofLimb]
  generalize u.toNat * m[j].toNat = p at *
  omega

/-- The wrap of `P + T` and its recovery: the true sum is `Sl + Sh·2^64 + w·2^128` (R94, R95). -/
theorem sum_with_escape (P T : Wide) :
    (add128 P T).val + (carryEscaped (add128 P T) P).toNat * 2 ^ 128 = P.val + T.val := by
  have hS := add128_val P T
  have hP := P.val_lt
  have hT := T.val_lt
  have hw : carryEscaped (add128 P T) P = decide ((add128 P T).val < P.val) := by
    simp only [carryEscaped, cmp128_lt_iff]
  rw [hw]
  by_cases h : (add128 P T).val < P.val
  · simp only [h, decide_true, Bool.toNat_true]; omega
  · simp only [h, decide_false, Bool.toNat_false]; omega

/-- The accumulator of an inner iteration, before its fix-up. -/
theorem innerStep_top (x y m : Elem) (u : Limb) (i : Fin 6) (t : RowState) (j : Fin 6)
    (h : t.acc[12] ≠ saturated) :
    (innerStep x y m u i t j).acc[12].toNat ≤ t.acc[12].toNat + 1 := by
  have hi := i.isLt
  have hj := j.isLt
  have h12 : ∀ v, (t.acc.set (i.val + j.val) v)[12] = t.acc[12] :=
    fun v => Vector.getElem_set_ne _ _ (by omega)
  simp only [innerStep]
  split
  · refine (rippleLoop_top _ _ _ (by rw [h12]; exact h)).trans ?_
    rw [h12]
  · rw [h12]; omega

/-- One inner iteration adds its two products at the weight of limb `i + j` and drops nothing, as long as
`A[12]` is not saturated (R104 (1)). -/
theorem innerStep_val (x y m : Elem) (u : Limb) (i : Fin 6) (t : RowState) (j : Fin 6)
    (h : t.acc[12] ≠ saturated) :
    accVal (innerStep x y m u i t j).acc
        + (innerStep x y m u i t j).carry.toNat * 2 ^ (64 * (i.val + j.val + 1))
      = accVal t.acc + t.carry.toNat * 2 ^ (64 * (i.val + j.val))
        + (x[i].toNat * y[j].toNat + u.toNat * m[j].toNat) * 2 ^ (64 * (i.val + j.val)) := by
  have hi := i.isLt
  have hj := j.isLt
  have hij : i.val + j.val < 13 := by omega
  generalize hP : partialSum x y i j t.carry = P
  generalize hT : reductionTerm m u j t.acc[i.val + j.val] = T
  have hPv : P.val = _ := hP ▸ partialSum_val x y i j t.carry
  have hTv : T.val = _ := hT ▸ reductionTerm_val m u j t.acc[i.val + j.val]
  have hS := sum_with_escape P T
  have hset := accVal_set t.acc (i.val + j.val) hij (add128 P T).lo
  have h12 : (t.acc.set (i.val + j.val) (add128 P T).lo)[12] = t.acc[12] :=
    Vector.getElem_set_ne _ _ (by omega)
  have hrip := ripple_val (i.val + j.val + 2) (by omega) (t.acc.set (i.val + j.val) (add128 P T).lo)
    (by rw [h12]; exact h)
  have hp1 : 2 ^ (64 * (i.val + j.val + 1)) = 2 ^ 64 * 2 ^ (64 * (i.val + j.val)) :=
    weight_add (i.val + j.val) 1
  have hp2 : 2 ^ (64 * (i.val + j.val + 2)) = 2 ^ 128 * 2 ^ (64 * (i.val + j.val)) :=
    weight_add (i.val + j.val) 2
  have hacc : accVal (innerStep x y m u i t j).acc
      = accVal (t.acc.set (i.val + j.val) (add128 P T).lo)
        + (carryEscaped (add128 P T) P).toNat * 2 ^ (64 * (i.val + j.val + 2)) := by
    simp only [innerStep, hP, hT]
    cases carryEscaped (add128 P T) P
    · simp
    · simp [hrip]
  have hcar : (innerStep x y m u i t j).carry = (add128 P T).hi := by simp only [innerStep, hP, hT]
  rw [hacc, hcar, hp1, hp2]
  have hval : (add128 P T).val = (add128 P T).hi.toNat * 2 ^ 64 + (add128 P T).lo.toNat := rfl
  rw [hval, hPv, hTv] at hS
  generalize (carryEscaped (add128 P T) P).toNat = w at *
  generalize 2 ^ (64 * (i.val + j.val)) = B at *
  zify at hset hS ⊢
  linear_combination hset + (B : ℤ) * hS

/-- Six inner iterations of row `i` in a row: their sum, and the bound on the top limb (R103, R104 (1)). -/
theorem six_innerSteps (x y m : Elem) (u : Limb) (i : Fin 6) {t0 t1 t2 t3 t4 t5 t6 : RowState}
    (h1 : innerStep x y m u i t0 0 = t1) (h2 : innerStep x y m u i t1 1 = t2)
    (h3 : innerStep x y m u i t2 2 = t3) (h4 : innerStep x y m u i t3 3 = t4)
    (h5 : innerStep x y m u i t4 4 = t5) (h6 : innerStep x y m u i t5 5 = t6)
    (h : t0.acc[12].toNat + 6 < 2 ^ 64) :
    accVal t6.acc + t6.carry.toNat * 2 ^ (64 * (i.val + 6))
      = accVal t0.acc + t0.carry.toNat * 2 ^ (64 * i.val)
        + (x[i].toNat * elemVal y + u.toNat * elemVal m) * 2 ^ (64 * i.val)
    ∧ t6.acc[12].toNat ≤ t0.acc[12].toNat + 6 := by
  have step : ∀ {t t' : RowState} {j : Fin 6}, innerStep x y m u i t j = t' →
      t.acc[12].toNat + 1 < 2 ^ 64 →
      t'.acc[12].toNat ≤ t.acc[12].toNat + 1 ∧
      accVal t'.acc + t'.carry.toNat * 2 ^ (64 * (i.val + j.val + 1))
        = accVal t.acc + t.carry.toNat * 2 ^ (64 * (i.val + j.val))
          + (x[i].toNat * y[j].toNat + u.toNat * m[j].toNat) * 2 ^ (64 * (i.val + j.val)) := by
    rintro t _ j rfl ht
    have hne : t.acc[12] ≠ saturated := by
      intro e
      rw [e, saturated_toNat] at ht
      exact absurd ht (by decide)
    exact ⟨innerStep_top x y m u i t j hne, innerStep_val x y m u i t j hne⟩
  obtain ⟨b1, e1⟩ := step h1 (by clear step; omega)
  obtain ⟨b2, e2⟩ := step h2 (by clear step e1; omega)
  obtain ⟨b3, e3⟩ := step h3 (by clear step e1 e2; omega)
  obtain ⟨b4, e4⟩ := step h4 (by clear step e1 e2 e3; omega)
  obtain ⟨b5, e5⟩ := step h5 (by clear step e1 e2 e3 e4; omega)
  obtain ⟨b6, e6⟩ := step h6 (by clear step e1 e2 e3 e4 e5; omega)
  refine ⟨?_, by clear step e1 e2 e3 e4 e5 e6; omega⟩
  clear step h1 h2 h3 h4 h5 h6 b1 b2 b3 b4 b5 b6
  have p1 : 2 ^ (64 * (i.val + 1)) = 2 ^ 64 * 2 ^ (64 * i.val) := weight_add i.val 1
  have p2 : 2 ^ (64 * (i.val + 2)) = 2 ^ 128 * 2 ^ (64 * i.val) := weight_add i.val 2
  have p3 : 2 ^ (64 * (i.val + 3)) = 2 ^ 192 * 2 ^ (64 * i.val) := weight_add i.val 3
  have p4 : 2 ^ (64 * (i.val + 4)) = 2 ^ 256 * 2 ^ (64 * i.val) := weight_add i.val 4
  have p5 : 2 ^ (64 * (i.val + 5)) = 2 ^ 320 * 2 ^ (64 * i.val) := weight_add i.val 5
  have p6 : 2 ^ (64 * (i.val + 6)) = 2 ^ 384 * 2 ^ (64 * i.val) := weight_add i.val 6
  change _ + _ * 2 ^ (64 * (i.val + 1)) = _ + _ * 2 ^ (64 * i.val)
    + (_ * y[0].toNat + _ * m[0].toNat) * 2 ^ (64 * i.val) at e1
  change _ + _ * 2 ^ (64 * (i.val + 2)) = _ + _ * 2 ^ (64 * (i.val + 1))
    + (_ * y[1].toNat + _ * m[1].toNat) * 2 ^ (64 * (i.val + 1)) at e2
  change _ + _ * 2 ^ (64 * (i.val + 3)) = _ + _ * 2 ^ (64 * (i.val + 2))
    + (_ * y[2].toNat + _ * m[2].toNat) * 2 ^ (64 * (i.val + 2)) at e3
  change _ + _ * 2 ^ (64 * (i.val + 4)) = _ + _ * 2 ^ (64 * (i.val + 3))
    + (_ * y[3].toNat + _ * m[3].toNat) * 2 ^ (64 * (i.val + 3)) at e4
  change _ + _ * 2 ^ (64 * (i.val + 5)) = _ + _ * 2 ^ (64 * (i.val + 4))
    + (_ * y[4].toNat + _ * m[4].toNat) * 2 ^ (64 * (i.val + 4)) at e5
  change _ + _ * 2 ^ (64 * (i.val + 6)) = _ + _ * 2 ^ (64 * (i.val + 5))
    + (_ * y[5].toNat + _ * m[5].toNat) * 2 ^ (64 * (i.val + 5)) at e6
  rw [p1] at e1 e2
  rw [p2] at e2 e3
  rw [p3] at e3 e4
  rw [p4] at e4 e5
  rw [p5] at e5 e6
  rw [p6] at e6 ⊢
  unfold elemVal
  generalize 2 ^ (64 * i.val) = B at *
  zify at e1 e2 e3 e4 e5 e6 ⊢
  linear_combination e1 + e2 + e3 + e4 + e5 + e6

/-- What the inner iterations of a row do to the accumulator and the carry (R104 (1)), and how far they
can raise the top limb (R103). -/
theorem innerLoop_spec (x y m : Elem) (u : Limb) (i : Fin 6) (A : Accumulator)
    (h : A[12].toNat + 6 < 2 ^ 64) :
    accVal (innerLoop x y m u i A).acc
        + (innerLoop x y m u i A).carry.toNat * 2 ^ (64 * (i.val + 6))
      = accVal A + (x[i].toNat * elemVal y + u.toNat * elemVal m) * 2 ^ (64 * i.val)
    ∧ (innerLoop x y m u i A).acc[12].toNat ≤ A[12].toNat + 6 := by
  obtain ⟨t0, ht0⟩ : ∃ t : RowState, t = { acc := A, carry := 0 } := ⟨_, rfl⟩
  have hloop : innerLoop x y m u i A = innerStep x y m u i (innerStep x y m u i (innerStep x y m u i
      (innerStep x y m u i (innerStep x y m u i (innerStep x y m u i t0 0) 1) 2) 3) 4) 5 := by
    rw [ht0]
    simp only [innerLoop, limbIndices, List.foldl_cons, List.foldl_nil]
  have hacc : t0.acc = A := by rw [ht0]
  have hcar : t0.carry.toNat = 0 := by rw [ht0]; rfl
  have hsix := six_innerSteps x y m u i (t0 := t0) rfl rfl rfl rfl rfl rfl (by rw [hacc]; exact h)
  rw [← hloop, hacc, hcar, Nat.zero_mul, Nat.add_zero (accVal A)] at hsix
  exact hsix

/-- A row adds `(x[i]·val(y) + u·val(m))·b^i` if the row-end addition has no carry out (R104 (2)). -/
theorem row_val (x y m : Elem) (inv : Limb) (A : Accumulator) (i : Fin 6)
    (h : A[12].toNat + 6 < 2 ^ 64) :
    (innerLoop x y m (rowMultiplier x y inv A i) i A).acc[i.val + 6].toNat
        + (innerLoop x y m (rowMultiplier x y inv A i) i A).carry.toNat < 2 ^ 64 →
    accVal (row x y m inv A i)
      = accVal A + (x[i].toNat * elemVal y + (rowMultiplier x y inv A i).toNat * elemVal m)
          * 2 ^ (64 * i.val) := by
  intro hc
  have hspec := (innerLoop_spec x y m (rowMultiplier x y inv A i) i A h).1
  unfold row endRow
  generalize innerLoop x y m (rowMultiplier x y inv A i) i A = t at *
  have hi := i.isLt
  have hadd : (addlo64 t.acc[i.val + 6] t.carry).toNat = t.acc[i.val + 6].toNat + t.carry.toNat := by
    rw [addlo64, BitVec.toNat_add]
    exact Nat.mod_eq_of_lt hc
  have hset := accVal_set t.acc (i.val + 6) (by clear hspec; omega) (addlo64 t.acc[i.val + 6] t.carry)
  rw [hadd, Nat.add_mul] at hset
  generalize 2 ^ (64 * (i.val + 6)) = B at *
  generalize 2 ^ (64 * i.val) = C at *
  linarith

/-- A row raises the top limb by at most six, whatever the operands (R103). -/
theorem row_top (x y m : Elem) (inv : Limb) (A : Accumulator) (i : Fin 6)
    (h : A[12].toNat + 6 < 2 ^ 64) : (row x y m inv A i)[12].toNat ≤ A[12].toNat + 6 := by
  have hi := i.isLt
  have hne : i.val + 6 ≠ 12 := by omega
  unfold row endRow
  rw [Vector.getElem_set_ne _ _ hne]
  exact (innerLoop_spec x y m (rowMultiplier x y inv A i) i A h).2

/-- No limb outweighs the accumulator's value. -/
theorem accVal_term_le (A : Accumulator) (k : Nat) (hk : k < 13) :
    A[k].toNat * 2 ^ (64 * k) ≤ accVal A := by
  have h := accVal_set A k hk 0
  have zero : (0 : Limb).toNat = 0 := rfl
  rw [zero, Nat.zero_mul, Nat.add_zero (accVal A)] at h
  rw [← h]
  exact Nat.le_add_left _ _

/-- The ripple over limbs that are all saturated clears them, its last carry leaving the accumulator
(R96). -/
theorem rippleLoop_saturated (fuel : Nat) : ∀ (k : Nat) (A : Accumulator), k + fuel = 13 →
    (∀ l, (h : l < 13) → k ≤ l → A[l] = saturated) →
    accVal (rippleLoop fuel k A) + 2 ^ (64 * 13) = accVal A + 2 ^ (64 * k) := by
  induction fuel with
  | zero =>
    intro k A hk _
    obtain rfl : k = 13 := by omega
    rfl
  | succ fuel ih =>
    intro k A hk hs
    have hk13 : k < 13 := by omega
    have hsat := hs k hk13 le_rfl
    unfold rippleLoop
    rw [dif_pos hk13, if_pos hsat]
    have hrest := ih (k + 1) (A.set k 0) (by omega) (by
      intro l hl hkl
      rw [Vector.getElem_set_ne _ _ (by omega)]
      exact hs l hl (by omega))
    have hset := accVal_set A k hk13 0
    have zero : (0 : Limb).toNat = 0 := rfl
    rw [hsat, saturated_toNat, zero, Nat.zero_mul, Nat.add_zero] at hset
    have hpow := weight_add k 1
    rw [Nat.mul_one] at hpow
    rw [hpow] at hrest
    generalize 2 ^ (64 * k) = B at *
    generalize accVal (rippleLoop fuel (k + 1) (A.set k 0)) = C at *
    generalize (2 : Nat) ^ (64 * 13) = D at *
    omega

/-- With a correct `INV` the reduction multiplier makes row `i`'s sum a multiple of `2^64` (R92, R104). -/
theorem rowMultiplier_cancels (x y m : Elem) (inv : Limb)
    (hinv : (inv.toNat * m[0].toNat + 1) % 2 ^ 64 = 0) (A : Accumulator) (i : Fin 6) (W : Nat)
    (hdig : W % 2 ^ 64 = A[i.val].toNat) :
    (W + x[i].toNat * elemVal y + (rowMultiplier x y inv A i).toNat * elemVal m) % 2 ^ 64 = 0 := by
  have hun : (rowMultiplier x y inv A i).toNat
      = (A[i.val].toNat + x[i].toNat * y[0].toNat) * inv.toNat % 2 ^ 64 := by
    rw [rowMultiplier, mullo64, addlo64, mullo64, BitVec.toNat_mul, BitVec.toNat_add, BitVec.toNat_mul,
      Nat.add_mod_mod, Nat.mod_mul_mod]
  generalize (rowMultiplier x y inv A i).toNat = u at *
  generalize x[i].toNat = xi at *
  generalize A[i.val].toNat = a at *
  have hy : elemVal y ≡ y[0].toNat [MOD 2 ^ 64] := by unfold Nat.ModEq elemVal; omega
  have hm : elemVal m ≡ m[0].toNat [MOD 2 ^ 64] := by unfold Nat.ModEq elemVal; omega
  generalize y[0].toNat = y0 at *
  generalize m[0].toNat = m0 at *
  generalize elemVal y = vy at *
  generalize elemVal m = vm at *
  have hW : W ≡ a [MOD 2 ^ 64] := by rw [← hdig]; exact (Nat.mod_modEq _ _).symm
  have hu : u ≡ (a + xi * y0) * inv.toNat [MOD 2 ^ 64] := by rw [hun]; exact Nat.mod_modEq _ _
  have hi : inv.toNat * m0 + 1 ≡ 0 [MOD 2 ^ 64] := hinv
  have hsum := (hW.add (Nat.ModEq.mul_left xi hy)).add (hu.mul hm)
  have hfactor : a + xi * y0 + (a + xi * y0) * inv.toNat * m0 = (a + xi * y0) * (inv.toNat * m0 + 1) := by
    ring
  rw [hfactor] at hsum
  exact hsum.trans (Nat.ModEq.mul_left _ hi)

/-- The copy of an accumulator whose low six limbs and top limb carry nothing is its value (R98, R104). -/
theorem elemVal_copyOut (A : Accumulator) (W : Nat) (h : accVal A = W * 2 ^ 384) (hW : W < 2 ^ 384) :
    elemVal (copyOut A) = W := by
  have := A[12].isLt
  have := A[0].isLt
  have := A[1].isLt
  have := A[2].isLt
  have := A[3].isLt
  have := A[4].isLt
  have := A[5].isLt
  rw [accVal_eq] at h
  simp only [elemVal, copyOut, Vector.getElem_mk, List.getElem_toArray, List.getElem_cons_zero,
    List.getElem_cons_succ]
  omega

end Sys2Proof.Machine
end

