-- ==== Sys2Proof/Laws/Decode.lean ====
section
/-! SUPPORT. The fields of a command word as digits of a number, and the fields of a packed word. -/

namespace Sys2Proof

theorem opcodeField_eq (c : CmdWord) : opcodeField c = c.toNat % 16 := by
  simp [opcodeField, BitVec.extractLsb'_toNat]

theorem regField_val (c : CmdWord) (lo : Nat) : (regField c lo).val = c.toNat / 2 ^ lo % 8 := by
  simp [regField, BitVec.extractLsb'_toNat, Nat.shiftRight_eq_div_pow]

theorem zeroField_iff (c : CmdWord) : c.extractLsb' 16 16 = 0 ↔ c.toNat < 2 ^ 16 := by
  have := c.isLt
  rw [← BitVec.toNat_inj]
  simp only [BitVec.extractLsb'_toNat, Nat.shiftRight_eq_div_pow, BitVec.ofNat_eq_ofNat,
    BitVec.toNat_ofNat]
  omega

theorem upperDatum_iff (v : Limb) : v.extractLsb' 32 32 = 0 ↔ v.toNat < 2 ^ 32 := by
  have := v.isLt
  rw [← BitVec.toNat_inj]
  simp only [BitVec.extractLsb'_toNat, Nat.shiftRight_eq_div_pow, BitVec.ofNat_eq_ofNat,
    BitVec.toNat_ofNat]
  omega

theorem lowWord_toNat (v : Limb) : (v.extractLsb' 0 32).toNat = v.toNat % 2 ^ 32 := by
  simp [BitVec.extractLsb'_toNat]

theorem packWord_toNat (op : Nat) (h : op < 16) (rd rs1 rs2 rm : EReg) :
    (packWord op rd rs1 rs2 rm).toNat
      = op + rd.val * 2 ^ 4 + rs1.val * 2 ^ 7 + rs2.val * 2 ^ 10 + rm.val * 2 ^ 13 := by
  have := rd.isLt
  have := rs1.isLt
  have := rs2.isLt
  have := rm.isLt
  rw [packWord, BitVec.toNat_ofNat]
  omega

theorem wordDatum_toNat (c : CmdWord) : (wordDatum c).toNat = c.toNat := by
  have := c.isLt
  rw [wordDatum, BitVec.toNat_setWidth]
  omega

/-- Decoding a word's datum is decoding the word (R45). -/
theorem decode_wordDatum (c : CmdWord) : decode (wordDatum c) = decodeWord c := by
  have hlt := c.isLt
  have hv := wordDatum_toNat c
  have h1 : (wordDatum c).extractLsb' 32 32 = 0 := by rw [upperDatum_iff, hv]; exact hlt
  have h2 : (wordDatum c).extractLsb' 0 32 = c := by
    apply BitVec.eq_of_toNat_eq
    rw [lowWord_toNat, hv]
    omega
  rw [decode, if_neg (not_not.mpr h1), h2]

/-- A packed word's fields are what was packed (R46). -/
theorem decodeWord_packWord (op : Nat) (h : op < 16) (rd rs1 rs2 rm : EReg) :
    decodeWord (packWord op rd rs1 rs2 rm) = decodeFields op rd rs1 rs2 rm := by
  have hv := packWord_toNat op h rd rs1 rs2 rm
  have := rd.isLt
  have := rs1.isLt
  have := rs2.isLt
  have := rm.isLt
  have h0 : (packWord op rd rs1 rs2 rm).extractLsb' 16 16 = 0 := by rw [zeroField_iff, hv]; omega
  have hop : opcodeField (packWord op rd rs1 rs2 rm) = op := by rw [opcodeField_eq, hv]; omega
  have h1 : rdField (packWord op rd rs1 rs2 rm) = rd := by
    apply Fin.ext; rw [rdField, regField_val, hv]; omega
  have h2 : rs1Field (packWord op rd rs1 rs2 rm) = rs1 := by
    apply Fin.ext; rw [rs1Field, regField_val, hv]; omega
  have h3 : rs2Field (packWord op rd rs1 rs2 rm) = rs2 := by
    apply Fin.ext; rw [rs2Field, regField_val, hv]; omega
  have h4 : rmField (packWord op rd rs1 rs2 rm) = rm := by
    apply Fin.ext; rw [rmField, regField_val, hv]; omega
  rw [decodeWord, if_neg (not_not.mpr h0), hop, h1, h2, h3, h4]

/-- What a command decoded from fields says about them: the word it came from packs the same way (R46,
R51). -/
theorem decodeFields_command {op : Nat} {rd rs1 rs2 rm : EReg} {i : Instr}
    (h : decodeFields op rd rs1 rs2 rm = .command i) : encode i = packWord op rd rs1 rs2 rm := by
  unfold decodeFields at h
  split at h <;> first
    | (split at h
       · next hz => cases h; simp_all [encode]
       · cases h)
    | (cases h; rfl)
    | cases h

end Sys2Proof
end

