-- ==== Sys2Proof/Laws/State.lean ====
section
/-! SUPPORT. One lemma per field per update of the state, so that no proof unfolds a record update. -/

namespace Sys2Proof.Machine

@[simp] theorem State.setElem_inv (s : State) (r : EReg) (v : Elem) : (s.setElem r v).inv = s.inv := rfl
@[simp] theorem State.setElem_ah (s : State) (r : EReg) (v : Elem) : (s.setElem r v).ah = s.ah := rfl
@[simp] theorem State.setElem_al (s : State) (r : EReg) (v : Elem) : (s.setElem r v).al = s.al := rfl
@[simp] theorem State.setElem_bh (s : State) (r : EReg) (v : Elem) : (s.setElem r v).bh = s.bh := rfl
@[simp] theorem State.setElem_bl (s : State) (r : EReg) (v : Elem) : (s.setElem r v).bl = s.bl := rfl
@[simp] theorem State.setElem_rh (s : State) (r : EReg) (v : Elem) : (s.setElem r v).rh = s.rh := rfl
@[simp] theorem State.setElem_rl (s : State) (r : EReg) (v : Elem) : (s.setElem r v).rl = s.rl := rfl
@[simp] theorem State.setElem_status (s : State) (r : EReg) (v : Elem) : (s.setElem r v).status = s.status := rfl
@[simp] theorem State.setElem_pending (s : State) (r : EReg) (v : Elem) : (s.setElem r v).pending = s.pending := rfl
@[simp] theorem State.setElem_returned (s : State) (r : EReg) (v : Elem) : (s.setElem r v).returned = s.returned := rfl
@[simp] theorem State.setElem_draws (s : State) (r : EReg) (v : Elem) : (s.setElem r v).draws = s.draws := rfl

@[simp] theorem State.setBorrow_elems (s : State) (b : Bool) : (s.setBorrow b).elems = s.elems := rfl
@[simp] theorem State.setBorrow_inv (s : State) (b : Bool) : (s.setBorrow b).inv = s.inv := rfl
@[simp] theorem State.setBorrow_ah (s : State) (b : Bool) : (s.setBorrow b).ah = s.ah := rfl
@[simp] theorem State.setBorrow_al (s : State) (b : Bool) : (s.setBorrow b).al = s.al := rfl
@[simp] theorem State.setBorrow_bh (s : State) (b : Bool) : (s.setBorrow b).bh = s.bh := rfl
@[simp] theorem State.setBorrow_bl (s : State) (b : Bool) : (s.setBorrow b).bl = s.bl := rfl
@[simp] theorem State.setBorrow_rh (s : State) (b : Bool) : (s.setBorrow b).rh = s.rh := rfl
@[simp] theorem State.setBorrow_rl (s : State) (b : Bool) : (s.setBorrow b).rl = s.rl := rfl
@[simp] theorem State.setBorrow_pending (s : State) (b : Bool) : (s.setBorrow b).pending = s.pending := rfl
@[simp] theorem State.setBorrow_returned (s : State) (b : Bool) : (s.setBorrow b).returned = s.returned := rfl
@[simp] theorem State.setBorrow_draws (s : State) (b : Bool) : (s.setBorrow b).draws = s.draws := rfl
@[simp] theorem State.setBorrow_elem (s : State) (b : Bool) (r' : EReg) : (s.setBorrow b).elem r' = s.elem r' := rfl

@[simp] theorem State.setLte_elems (s : State) (b : Bool) : (s.setLte b).elems = s.elems := rfl
@[simp] theorem State.setLte_inv (s : State) (b : Bool) : (s.setLte b).inv = s.inv := rfl
@[simp] theorem State.setLte_ah (s : State) (b : Bool) : (s.setLte b).ah = s.ah := rfl
@[simp] theorem State.setLte_al (s : State) (b : Bool) : (s.setLte b).al = s.al := rfl
@[simp] theorem State.setLte_bh (s : State) (b : Bool) : (s.setLte b).bh = s.bh := rfl
@[simp] theorem State.setLte_bl (s : State) (b : Bool) : (s.setLte b).bl = s.bl := rfl
@[simp] theorem State.setLte_rh (s : State) (b : Bool) : (s.setLte b).rh = s.rh := rfl
@[simp] theorem State.setLte_rl (s : State) (b : Bool) : (s.setLte b).rl = s.rl := rfl
@[simp] theorem State.setLte_pending (s : State) (b : Bool) : (s.setLte b).pending = s.pending := rfl
@[simp] theorem State.setLte_returned (s : State) (b : Bool) : (s.setLte b).returned = s.returned := rfl
@[simp] theorem State.setLte_draws (s : State) (b : Bool) : (s.setLte b).draws = s.draws := rfl
@[simp] theorem State.setLte_elem (s : State) (b : Bool) (r' : EReg) : (s.setLte b).elem r' = s.elem r' := rfl

@[simp] theorem State.setCmp_elems (s : State) (o : Ordering) : (s.setCmp o).elems = s.elems := rfl
@[simp] theorem State.setCmp_inv (s : State) (o : Ordering) : (s.setCmp o).inv = s.inv := rfl
@[simp] theorem State.setCmp_ah (s : State) (o : Ordering) : (s.setCmp o).ah = s.ah := rfl
@[simp] theorem State.setCmp_al (s : State) (o : Ordering) : (s.setCmp o).al = s.al := rfl
@[simp] theorem State.setCmp_bh (s : State) (o : Ordering) : (s.setCmp o).bh = s.bh := rfl
@[simp] theorem State.setCmp_bl (s : State) (o : Ordering) : (s.setCmp o).bl = s.bl := rfl
@[simp] theorem State.setCmp_rh (s : State) (o : Ordering) : (s.setCmp o).rh = s.rh := rfl
@[simp] theorem State.setCmp_rl (s : State) (o : Ordering) : (s.setCmp o).rl = s.rl := rfl
@[simp] theorem State.setCmp_pending (s : State) (o : Ordering) : (s.setCmp o).pending = s.pending := rfl
@[simp] theorem State.setCmp_returned (s : State) (o : Ordering) : (s.setCmp o).returned = s.returned := rfl
@[simp] theorem State.setCmp_draws (s : State) (o : Ordering) : (s.setCmp o).draws = s.draws := rfl
@[simp] theorem State.setCmp_elem (s : State) (o : Ordering) (r' : EReg) : (s.setCmp o).elem r' = s.elem r' := rfl

@[simp] theorem State.setIll_elems (s : State) : s.setIll.elems = s.elems := rfl
@[simp] theorem State.setIll_inv (s : State) : s.setIll.inv = s.inv := rfl
@[simp] theorem State.setIll_ah (s : State) : s.setIll.ah = s.ah := rfl
@[simp] theorem State.setIll_al (s : State) : s.setIll.al = s.al := rfl
@[simp] theorem State.setIll_bh (s : State) : s.setIll.bh = s.bh := rfl
@[simp] theorem State.setIll_bl (s : State) : s.setIll.bl = s.bl := rfl
@[simp] theorem State.setIll_rh (s : State) : s.setIll.rh = s.rh := rfl
@[simp] theorem State.setIll_rl (s : State) : s.setIll.rl = s.rl := rfl
@[simp] theorem State.setIll_pending (s : State) : s.setIll.pending = s.pending := rfl
@[simp] theorem State.setIll_returned (s : State) : s.setIll.returned = s.returned := rfl
@[simp] theorem State.setIll_draws (s : State) : s.setIll.draws = s.draws := rfl
@[simp] theorem State.setIll_elem (s : State) (r' : EReg) : s.setIll.elem r' = s.elem r' := rfl

@[simp] theorem State.setResultPair_elems (s : State) (w : Wide) : (s.setResultPair w).elems = s.elems := rfl
@[simp] theorem State.setResultPair_inv (s : State) (w : Wide) : (s.setResultPair w).inv = s.inv := rfl
@[simp] theorem State.setResultPair_ah (s : State) (w : Wide) : (s.setResultPair w).ah = s.ah := rfl
@[simp] theorem State.setResultPair_al (s : State) (w : Wide) : (s.setResultPair w).al = s.al := rfl
@[simp] theorem State.setResultPair_bh (s : State) (w : Wide) : (s.setResultPair w).bh = s.bh := rfl
@[simp] theorem State.setResultPair_bl (s : State) (w : Wide) : (s.setResultPair w).bl = s.bl := rfl
@[simp] theorem State.setResultPair_status (s : State) (w : Wide) : (s.setResultPair w).status = s.status := rfl
@[simp] theorem State.setResultPair_pending (s : State) (w : Wide) : (s.setResultPair w).pending = s.pending := rfl
@[simp] theorem State.setResultPair_returned (s : State) (w : Wide) : (s.setResultPair w).returned = s.returned := rfl
@[simp] theorem State.setResultPair_draws (s : State) (w : Wide) : (s.setResultPair w).draws = s.draws := rfl
@[simp] theorem State.setResultPair_elem (s : State) (w : Wide) (r' : EReg) : (s.setResultPair w).elem r' = s.elem r' := rfl

@[simp] theorem State.setBorrow_status (s : State) (b : Bool) :
    (s.setBorrow b).status = { s.status with borrow := b } := rfl
@[simp] theorem State.setLte_status (s : State) (b : Bool) :
    (s.setLte b).status = { s.status with lte := b } := rfl
@[simp] theorem State.setCmp_status (s : State) (o : Ordering) :
    (s.setCmp o).status = { s.status with cmp := cmpCode o } := rfl
@[simp] theorem State.setIll_status (s : State) :
    s.setIll.status = { s.status with ill := true } := rfl
@[simp] theorem State.setResultPair_rh (s : State) (w : Wide) : (s.setResultPair w).rh = w.hi := rfl
@[simp] theorem State.setResultPair_rl (s : State) (w : Wide) : (s.setResultPair w).rl = w.lo := rfl

/-- A write to an element register is what a read of it gives. -/
@[simp] theorem State.elem_setElem_self (s : State) (r : EReg) (v : Elem) : (s.setElem r v).elem r = v := by
  simp [State.elem, State.setElem]

/-- A write to an element register leaves every other one alone. -/
theorem State.elem_setElem_ne (s : State) {r r' : EReg} (v : Elem) (h : r' ≠ r) :
    (s.setElem r v).elem r' = s.elem r' := by
  have : r.val ≠ r'.val := fun e => h (Fin.ext e.symm)
  simp [State.elem, State.setElem, Vector.getElem_set_ne _ _ this]

/-- Read after write, both cases at once. -/
theorem State.elem_setElem (s : State) (r r' : EReg) (v : Elem) :
    (s.setElem r v).elem r' = if r' = r then v else s.elem r' := by
  split
  · next h => subst h; simp
  · next h => exact s.elem_setElem_ne v h

/-- Writing what a register holds changes nothing. -/
theorem State.setElem_self (s : State) (r : EReg) : s.setElem r (s.elem r) = s := by
  simp [State.elem, State.setElem]

/-- The later of two writes to one register wins. -/
theorem State.setElem_setElem (s : State) (r : EReg) (v w : Elem) :
    (s.setElem r v).setElem r w = s.setElem r w := by
  simp [State.setElem]

/-- The limb a limb write changes. -/
theorem State.setLimb_elem_get (s : State) (r : EReg) (l : Fin 6) (v : Limb) (l' : Fin 6) :
    ((s.setLimb r l v).elem r)[l'] = if l' = l then v else (s.elem r)[l'] := by
  unfold State.setLimb
  rw [State.elem_setElem_self]
  split
  · next h => subst h; simp
  · next h =>
    have : l.val ≠ l'.val := fun e => h (Fin.ext e.symm)
    simp [Vector.getElem_set_ne _ _ this]

/-- A limb write leaves every other element register alone. -/
theorem State.setLimb_elem_ne (s : State) {r r' : EReg} (l : Fin 6) (v : Limb) (h : r' ≠ r) :
    (s.setLimb r l v).elem r' = s.elem r' := s.elem_setElem_ne _ h

@[simp] theorem State.setLimb_inv (s : State) (r : EReg) (l : Fin 6) (v : Limb) : (s.setLimb r l v).inv = s.inv := rfl
@[simp] theorem State.setLimb_ah (s : State) (r : EReg) (l : Fin 6) (v : Limb) : (s.setLimb r l v).ah = s.ah := rfl
@[simp] theorem State.setLimb_al (s : State) (r : EReg) (l : Fin 6) (v : Limb) : (s.setLimb r l v).al = s.al := rfl
@[simp] theorem State.setLimb_bh (s : State) (r : EReg) (l : Fin 6) (v : Limb) : (s.setLimb r l v).bh = s.bh := rfl
@[simp] theorem State.setLimb_bl (s : State) (r : EReg) (l : Fin 6) (v : Limb) : (s.setLimb r l v).bl = s.bl := rfl
@[simp] theorem State.setLimb_rh (s : State) (r : EReg) (l : Fin 6) (v : Limb) : (s.setLimb r l v).rh = s.rh := rfl
@[simp] theorem State.setLimb_rl (s : State) (r : EReg) (l : Fin 6) (v : Limb) : (s.setLimb r l v).rl = s.rl := rfl
@[simp] theorem State.setLimb_status (s : State) (r : EReg) (l : Fin 6) (v : Limb) : (s.setLimb r l v).status = s.status := rfl
@[simp] theorem State.setLimb_pending (s : State) (r : EReg) (l : Fin 6) (v : Limb) : (s.setLimb r l v).pending = s.pending := rfl
@[simp] theorem State.setLimb_returned (s : State) (r : EReg) (l : Fin 6) (v : Limb) : (s.setLimb r l v).returned = s.returned := rfl
@[simp] theorem State.setLimb_draws (s : State) (r : EReg) (l : Fin 6) (v : Limb) : (s.setLimb r l v).draws = s.draws := rfl

end Sys2Proof.Machine
end

