-- ==== Sys2Proof/Laws/Ops.lean ====
section
/-! SUPPORT. The address map and the reads, and what each command and event does, said once. -/

namespace Sys2Proof.Machine

theorem portReg_elemAddr : ∀ (r : EReg) (l : Fin 6), portReg (elemAddr r l) = .elem r l := by decide

/-- Every address that maps to a register is that register's address: no two names share a word (R31,
R32). -/
theorem addr_portReg : ∀ a : Addr, portReg a = .unmapped ∨ (portReg a).addr = some a := by
  decide +kernel

/-- Two addresses of one mapped register are one address. -/
theorem portReg_injective {a b : Addr} (h : portReg a = portReg b) (hm : portReg a ≠ .unmapped) :
    a = b := by
  have ha := (addr_portReg a).resolve_left hm
  have hb := (addr_portReg b).resolve_left (h ▸ hm)
  rw [h, hb] at ha
  exact (Option.some.inj ha).symm

theorem statusWord_toNat (f : Status) :
    f.word.toNat = f.ill.toNat * 16 + f.cmp.toNat * 4 + f.lte.toNat * 2 + f.borrow.toNat := by
  have := Bool.toNat_le f.ill
  have := Bool.toNat_le f.lte
  have := Bool.toNat_le f.borrow
  have := f.cmp.isLt
  rw [Status.word, BitVec.toNat_ofNat]
  omega

/-- The code of an ordering is never `0b10` (R19). -/
theorem cmpCode_legal (o : Ordering) : cmpCode o ≠ 0b10 := by cases o <;> decide

/-! What each command does: its next state, in one line (R65, R67, R76, R78, R80, R86, R88, R100). -/

@[simp] theorem exec_cmp128 (s : State) :
    exec .cmp128 s = .next (s.setCmp (cmp128 s.firstPair s.secondPair)) := rfl
@[simp] theorem exec_add64 (s : State) :
    exec .add64 s = .next (s.setResultPair (add128 s.firstPair s.secondPair)) := rfl
@[simp] theorem exec_add (rd rs1 rs2 : EReg) (s : State) :
    exec (.add rd rs1 rs2) s = .next (s.setElem rd (add384 (s.elem rs1) (s.elem rs2))) := rfl
@[simp] theorem exec_sub (rd rs1 rs2 : EReg) (s : State) :
    exec (.sub rd rs1 rs2) s
      = .next ((s.setElem rd (sub384 (s.elem rs1) (s.elem rs2)).1).setBorrow
          (sub384 (s.elem rs1) (s.elem rs2)).2) := rfl
@[simp] theorem exec_lte (rs1 rs2 : EReg) (s : State) :
    exec (.lte rs1 rs2) s = .next (s.setLte (lteElem (s.elem rs1) (s.elem rs2))) := rfl
@[simp] theorem exec_addmod (rd rs1 rs2 rm : EReg) (s : State) :
    exec (.addmod rd rs1 rs2 rm) s
      = .next (s.setElem rd (addmod (s.elem rs1) (s.elem rs2) (s.elem rm))) := rfl
@[simp] theorem exec_submod (rd rs1 rs2 rm : EReg) (s : State) :
    exec (.submod rd rs1 rs2 rm) s
      = .next (s.setElem rd (submod (s.elem rs1) (s.elem rs2) (s.elem rm))) := rfl
@[simp] theorem exec_mulmod (rd rs1 rs2 rm : EReg) (s : State) :
    exec (.mulmod rd rs1 rs2 rm) s
      = .next (s.setElem rd (mulmod (s.elem rs1) (s.elem rs2) (s.elem rm) s.inv)) := rfl

/-- All a command can do to a state: write its destination, its flag, or the result pair. -/
theorem exec_inversion {i : Instr} {s t : State} (h : exec i s = .next t) :
    (i = .cmp128 ∧ ∃ o, t = s.setCmp o)
    ∨ (i = .add64 ∧ ∃ w, t = s.setResultPair w)
    ∨ (∃ rd v, i.dest = some rd ∧ i.mnemonic ≠ "SUB" ∧ t = s.setElem rd v)
    ∨ (∃ rd rs1 rs2 v b, i = .sub rd rs1 rs2 ∧ t = (s.setElem rd v).setBorrow b)
    ∨ (∃ rs1 rs2 b, i = .lte rs1 rs2 ∧ t = s.setLte b) := by
  cases i with
  | cmp128 => rw [exec_cmp128] at h; cases h; exact .inl ⟨rfl, _, rfl⟩
  | add64 => rw [exec_add64] at h; cases h; exact .inr (.inl ⟨rfl, _, rfl⟩)
  | add rd rs1 rs2 =>
    rw [exec_add] at h; cases h; exact .inr (.inr (.inl ⟨rd, _, rfl, by simp [Instr.mnemonic], rfl⟩))
  | sub rd rs1 rs2 =>
    rw [exec_sub] at h; cases h; exact .inr (.inr (.inr (.inl ⟨rd, rs1, rs2, _, _, rfl, rfl⟩)))
  | lte rs1 rs2 =>
    rw [exec_lte] at h; cases h; exact .inr (.inr (.inr (.inr ⟨rs1, rs2, _, rfl, rfl⟩)))
  | addmod rd rs1 rs2 rm =>
    rw [exec_addmod] at h; cases h; exact .inr (.inr (.inl ⟨rd, _, rfl, by simp [Instr.mnemonic], rfl⟩))
  | submod rd rs1 rs2 rm =>
    rw [exec_submod] at h; cases h; exact .inr (.inr (.inl ⟨rd, _, rfl, by simp [Instr.mnemonic], rfl⟩))
  | mulmod rd rs1 rs2 rm =>
    rw [exec_mulmod] at h; cases h; exact .inr (.inr (.inl ⟨rd, _, rfl, by simp [Instr.mnemonic], rfl⟩))

/-- All a port write can do (R36, R40, R52): a register takes the datum, a decoded command runs, or the
request is illegal. -/
theorem portWrite_inversion {a : Addr} {v : Limb} {s t : State} (h : portWrite a v s = .next t) :
    (∃ r l, portReg a = .elem r l ∧ t = s.setLimb r l v)
    ∨ (portReg a = .inv ∧ t = { s with inv := v })
    ∨ (portReg a = .ah ∧ t = { s with ah := v })
    ∨ (portReg a = .al ∧ t = { s with al := v })
    ∨ (portReg a = .bh ∧ t = { s with bh := v })
    ∨ (portReg a = .bl ∧ t = { s with bl := v })
    ∨ (portReg a = .cmd ∧ ∃ i, decode v = .command i ∧ exec i s = .next t)
    ∨ (portReg a = .cmd ∧ (∃ why, decode v = .malformed why) ∧ t = s.setIll)
    ∨ ((portReg a = .rh ∨ portReg a = .rl ∨ portReg a = .status ∨ portReg a = .unmapped)
        ∧ t = s.setIll) := by
  unfold portWrite at h
  cases hp : portReg a with
  | elem r l => rw [hp] at h; cases h; exact .inl ⟨r, l, rfl, rfl⟩
  | inv => rw [hp] at h; cases h; simp
  | ah => rw [hp] at h; cases h; simp
  | al => rw [hp] at h; cases h; simp
  | bh => rw [hp] at h; cases h; simp
  | bl => rw [hp] at h; cases h; simp
  | rh => rw [hp] at h; cases h; simp [illegalRequest]
  | rl => rw [hp] at h; cases h; simp [illegalRequest]
  | status => rw [hp] at h; cases h; simp [illegalRequest]
  | unmapped => rw [hp] at h; cases h; simp [illegalRequest]
  | cmd =>
    rw [hp] at h
    simp only [writeReg, issueCommand] at h
    cases hd : decode v with
    | command i => rw [hd] at h; simp [h]
    | malformed why => rw [hd] at h; cases h; simp [illegalRequest]

/-- Every command answers a next state (R130). -/
theorem exec_answers (i : Instr) (s : State) : ∃ t, exec i s = .next t := by
  cases i <;> exact ⟨_, rfl⟩

/-- Every port write answers a next state (R36, R40, R52, R130). -/
theorem portWrite_answers (a : Addr) (v : Limb) (s : State) : ∃ t, portWrite a v s = .next t := by
  unfold portWrite
  cases portReg a <;> first
    | exact ⟨_, rfl⟩
    | (simp only [writeReg, issueCommand]
       cases decode v with
       | command i => exact exec_answers i s
       | malformed why => exact ⟨_, rfl⟩)

end Sys2Proof.Machine
end

