-- ==== Sys2Proof/Laws/PerInstr.lean ====
section
/-! SUPPORT. One family of facts about commands as syntax, a lemma per constructor: the encoding of a
command is a word of its own row of the opcode table (R48). -/

namespace Sys2Proof.Laws.EncodeMatchesRow

/-- Some row of the table has the command's mnemonic and is hit by its encoding. -/
def Statement (i : Instr) : Prop :=
  ∃ row ∈ opcodeTable, row.mnemonic = i.mnemonic ∧ row.hits (encode i) = true

theorem cmp128 : Statement .cmp128 := ⟨opcodeTable[0], by decide, rfl, by decide⟩

theorem add64 : Statement .add64 := ⟨opcodeTable[1], by decide, rfl, by decide⟩

theorem add (rd rs1 rs2 : EReg) : Statement (.add rd rs1 rs2) :=
  ⟨opcodeTable[2], by decide, rfl, by revert rd rs1 rs2; decide +kernel⟩

theorem sub (rd rs1 rs2 : EReg) : Statement (.sub rd rs1 rs2) :=
  ⟨opcodeTable[3], by decide, rfl, by revert rd rs1 rs2; decide +kernel⟩

theorem lte (rs1 rs2 : EReg) : Statement (.lte rs1 rs2) :=
  ⟨opcodeTable[4], by decide, rfl, by revert rs1 rs2; decide +kernel⟩

theorem addmod (rd rs1 rs2 rm : EReg) : Statement (.addmod rd rs1 rs2 rm) :=
  ⟨opcodeTable[5], by decide, rfl, by revert rd rs1 rs2 rm; decide +kernel⟩

theorem submod (rd rs1 rs2 rm : EReg) : Statement (.submod rd rs1 rs2 rm) :=
  ⟨opcodeTable[6], by decide, rfl, by revert rd rs1 rs2 rm; decide +kernel⟩

theorem mulmod (rd rs1 rs2 rm : EReg) : Statement (.mulmod rd rs1 rs2 rm) :=
  ⟨opcodeTable[7], by decide, rfl, by revert rd rs1 rs2 rm; decide +kernel⟩

end Sys2Proof.Laws.EncodeMatchesRow
end

