-- ==== Sys2Proof/Laws/Step.lean ====
section
/-! SUPPORT. What one step does, said once (R37, R38, R145, R153). -/

namespace Sys2Proof.Machine

theorem step_nil {s : State} (h : s.pending = []) : step s = .next s := by
  unfold step; rw [h]

theorem step_cons {s : State} {e : HostEvent} {rest : List HostEvent} (h : s.pending = e :: rest) :
    step s = performEvent e { s with pending := rest } := by
  unfold step; rw [h]

@[simp] theorem performEvent_read (a : Addr) (s : State) :
    performEvent (.transact (.read a)) s = .next (portRead a s) := rfl
@[simp] theorem performEvent_write (a : Addr) (v : Limb) (s : State) :
    performEvent (.transact (.write a v)) s = portWrite a v s := rfl
@[simp] theorem performEvent_reset (s : State) : performEvent .reset s = .next (applyReset s) := rfl
@[simp] theorem performEvent_foreign (tr : Transaction) (s : State) :
    performEvent (.foreign tr) s = .refused .severalHosts := rfl

/-- All a step that answers a next state can have done: nothing, a read, a write, or a reset. -/
theorem step_inversion {s t : State} (h : step s = .next t) :
    (s.pending = [] ∧ t = s)
    ∨ (∃ a rest, s.pending = .transact (.read a) :: rest ∧ t = portRead a { s with pending := rest })
    ∨ (∃ a v rest, s.pending = .transact (.write a v) :: rest
        ∧ portWrite a v { s with pending := rest } = .next t)
    ∨ (∃ rest, s.pending = .reset :: rest ∧ t = applyReset { s with pending := rest }) := by
  cases hp : s.pending with
  | nil => rw [step_nil hp] at h; cases h; exact .inl ⟨rfl, rfl⟩
  | cons e rest =>
    rw [step_cons hp] at h
    match e with
    | .transact (.read a) => cases h; exact .inr (.inl ⟨a, rest, rfl, rfl⟩)
    | .transact (.write a v) => exact .inr (.inr (.inl ⟨a, v, rest, rfl, h⟩))
    | .reset => cases h; exact .inr (.inr (.inr ⟨rest, rfl, rfl⟩))
    | .foreign tr => cases h

end Sys2Proof.Machine
end

