-- ==== Sys2Proof/Tests/Slice0.lean ====
section
/-! SUPPORT. The model's own tests. Expected values come from the vectors of `spec/95_test_vectors.md`,
whose names stand in the docstrings. After them, one witness for the hypotheses of each statement. -/

namespace Sys2Proof.Tests

open Sys2Proof Sys2Proof.Machine

/-! ### Helpers -/

/-- An element from its limbs, limb 0 first, missing upper limbs zero (section "Notation"). -/
def el (l : List Nat) : Elem := Vector.ofFn fun i : Fin 6 => BitVec.ofNat 64 (l.getD i.val 0)

/-- `M` as a number. -/
def m64 : Nat := 0xffffffffffffffff

/-- The moduli and constants of section 1. -/
def p381 : Elem := el [0xb9feffffffffaaab, 0x1eabfffeb153ffff, 0x6730d2a0f6b0f624, 0x64774b84f38512bf,
  0x4b1ba7b6434bacd7, 0x1a0111ea397fe69a]
def p381m1 : Elem := el [0xb9feffffffffaaaa, 0x1eabfffeb153ffff, 0x6730d2a0f6b0f624, 0x64774b84f38512bf,
  0x4b1ba7b6434bacd7, 0x1a0111ea397fe69a]
def inv381 : Limb := 0x89f3fffcfffcfffd
def ms : Elem := el [5, 1]
def mbig : Elem := el [0xfffffffffffffec3, m64, m64, m64, m64, m64]

/-- The operands of V-MUL-6. -/
def xMul6 : Elem := el [0xb8a749dd6238a98e, 0xdb550c5479487b20, 0x3a189ed6560dcad4, 0xf5ac5ddfbddee519,
  0x9227e140345c4be2, 0x16710147f9976f9e]
def yMul6 : Elem := el [0x9016b3d3a4656f23, 0x32c705f0b8e77334, 0x2df75ff3cec3ac85, 0xb94dc918c9c3e40c,
  0xd5cdc203f666d152, 0x0c0f048f66a36ab0]

/-- The setup of sections 6 to 9: x in `E[0]`, y in `E[1]`, m in `E[7]`. -/
def loaded (x y m : Elem) (inv : Limb := 0) : State :=
  { State.reset with
    elems := #v[x, y, el [], el [], el [], el [], el [], m]
    inv := inv }

/-- The setup of sections 4 and 5. -/
def pairs (ah al bh bl : Nat) : State :=
  { State.reset with
    ah := BitVec.ofNat 64 ah, al := BitVec.ofNat 64 al, bh := BitVec.ofNat 64 bh, bl := BitVec.ofNat 64 bl }

/-- The next state, if that is the outcome. -/
def nextOf : Host.Outcome State Fault Refusal → Option State
  | .next t => some t
  | .fault _ => none
  | .refused _ => none

/-- The block just out of reset with one event issued. -/
def issued (e : HostEvent) : State := { State.reset with pending := [e] }

/-- What the port then reads at an address after one step. -/
def readAfter (s : State) (a : Addr) : Option Limb := (nextOf (step s)).map (readValue · a)

/-! ### Encoding -/

/-- V-ENC-1 to V-ENC-11. -/
theorem test_decode_cmp128 : decode 0x00000001 = .command .cmp128 := by decide
theorem test_decode_add64 : decode 0x00000002 = .command .add64 := by decide
theorem test_decode_add : decode 0x00000423 = .command (.add 2 0 1) := by decide
theorem test_decode_sub : decode 0x00001d34 = .command (.sub 3 2 7) := by decide
theorem test_decode_lte : decode 0x00000b85 = .command (.lte 7 2) := by decide
theorem test_decode_addmod : decode 0x0000e426 = .command (.addmod 2 0 1 7) := by decide
theorem test_decode_submod : decode 0x0000e537 = .command (.submod 3 2 1 7) := by decide
theorem test_decode_mulmod : decode 0x0000f808 = .command (.mulmod 0 0 6 7) := by decide

/-- V-ENC-4, 10 and 11, written out field by field: rm, rs2, rs1, rd, opcode. -/
theorem test_decode_fields :
    decode 0b000_000_011_100_0100 = .command (.sub 4 3 0)
    ∧ decode 0b111_111_111_111_1000 = .command (.mulmod 7 7 7 7)
    ∧ decode 0b000_000_000_000_0011 = .command (.add 0 0 0) := by decide

/-- The words of programs P1 to P4 that no V-ENC row has. -/
theorem test_encode_program_words :
    encode (.mulmod 2 0 1 7) = 0x0000e428 ∧ encode (.mulmod 3 2 5 7) = 0x0000f538
    ∧ encode (.lte 3 0) = 0x00000185 ∧ encode (.addmod 7 0 1 7) = 0x0000e476
    ∧ encode (.submod 2 0 1 7) = 0x0000e427 := by decide

/-- The assembler lines of V-ENC-1, 6 and 7. -/
theorem test_asm : Instr.asm .cmp128 = "CMP128" ∧ Instr.asm (.lte 7 2) = "LTE e7, e2"
    ∧ Instr.asm (.addmod 2 0 1 7) = "ADDMOD e2, e0, e1, e7" := by decide +kernel

/-- V-ILL-1 to V-ILL-8: each datum is refused by the check, and the decoder names the reason. -/
theorem test_wellformed_refuses_reserved_opcode :
    datumWellFormed 0x0 = false ∧ datumWellFormed 0x9 = false ∧ datumWellFormed 0xf = false
    ∧ decode 0x0 = .malformed .reservedOpcode ∧ decode 0x9 = .malformed .reservedOpcode := by decide
theorem test_wellformed_refuses_unused_field :
    datumWellFormed 0x11 = false ∧ datumWellFormed 0x12 = false ∧ datumWellFormed 0x2003 = false
    ∧ datumWellFormed 0x2004 = false ∧ datumWellFormed 0x15 = false ∧ datumWellFormed 0x2005 = false
    ∧ decode 0x11 = .malformed .unusedField ∧ decode 0x2003 = .malformed .unusedField
    ∧ decode 0x15 = .malformed .unusedField ∧ decode 0x2005 = .malformed .unusedField := by decide
theorem test_wellformed_refuses_zero_field :
    datumWellFormed 0x10006 = false ∧ decode 0x10006 = .malformed .zeroField := by decide
theorem test_wellformed_refuses_upper_datum :
    datumWellFormed 0x100000006 = false ∧ datumWellFormed 0xffffffffffffffff = false
    ∧ decode 0x100000006 = .malformed .upperDatum
    ∧ decode 0xffffffffffffffff = .malformed .upperDatum := by decide
theorem test_wellformed_accepts :
    datumWellFormed 0x1 = true ∧ datumWellFormed 0xe426 = true ∧ datumWellFormed 0xfff8 = true := by decide

/-- The masks of the opcode table are the opcode's four bits and the bits the format keeps zero. -/
theorem test_masks_follow_formats :
    opcodeTable.all (fun row => row.mask == (row.format.mustBeZero ||| 0xF)) = true := by decide

/-- The first word of every table row, issued right after reset, is that row's command and runs. -/
theorem test_fetch_every_row :
    opcodeTable.all (fun row => (decodeTableWord 32 row.matchBits.toNat).map Instr.mnemonic == some row.mnemonic
      && (nextOf (step (State.reset.withFetchWord 32 row.matchBits.toNat))).isSome) = true := by
  decide +kernel

/-- A reserved opcode is no instruction, and a number longer than the port carries is no datum. -/
theorem test_fetch_word :
    decodeTableWord 32 0x423 = some (.add 2 0 1) ∧ decodeTableWord 32 0x9 = none
    ∧ decodeTableWord 72 (2 ^ 64 + 0x423) = none := by decide +kernel

/-! ### The functions (section 3) -/

/-- V-PRIM-1, 3, 4, 5, 9, 11, 12. -/
theorem test_primitives :
    adc64 saturated saturated true = (saturated, true)
    ∧ adc64 0x8000000000000000 0x8000000000000000 false = (0, true)
    ∧ sbb64 0 0 true = (saturated, true) ∧ sbb64 0 saturated true = (0, true)
    ∧ mul64 0xdeadbeefcafebabe 0x0123456789abcdef = ⟨0x00fd5bdeeeb2a01d, 0x7eb689f4ea447d62⟩
    ∧ mullo64 0xdeadbeefcafebabe 0x0123456789abcdef = 0x7eb689f4ea447d62
    ∧ addlo64 saturated 2 = 1 := by decide +kernel

/-- V-MUL-8: the ripple passes a saturated limb; the whole final accumulator. -/
theorem test_ripple_through_saturated_limb :
    accumulate (el [0x0000000100000000, 0xfffffffffffffffe, 0, m64, 0x0000000100000000, 0])
      (el [0, 0xfffffffffffffffe, 3, 0xfffffffffffffffe, m64, 0xfffffffffffffffe])
      (el [m64, 0xfffffffffffffffe, 0x0000000100000000, 0xfffffffffffffffe, 0xfffffffffffffffd,
        0xfffffffffffffffd]) saturated
    = #v[0, 0xfffffffc00000000, 0x0000000400000006, 0x00000003fffffff0, 0xfffffff1fffffffe,
        0xfffffffa00000004, 0x0000000efffffffd, 0xfffffffafffffff0, 0xffffffedffffffef,
        0xffffffe900000006, 0x0000000200000006, 0x00000002fffffffe, 0] := by decide +kernel

/-- V-MUL-9: the carry out of the last row's end is lost. -/
theorem test_row_end_carry_dropped :
    (accumulate (el [1, 2, 0x00000000ffffffff, 1, 3, 0xfffffffffffffffd])
      (el [2, 2, m64, m64, 0xfffffffffffffffd, m64]) (el [3, 1, 0x00000000ffffffff, 1, m64, 3])
      0xfffffffffffffffd)[12] = 0
    ∧ copyOut (accumulate (el [1, 2, 0x00000000ffffffff, 1, 3, 0xfffffffffffffffd])
      (el [2, 2, m64, m64, 0xfffffffffffffffd, m64]) (el [3, 1, 0x00000000ffffffff, 1, m64, 3])
      0xfffffffffffffffd)
    = el [0xfffffbc4000003b7, 0x00000698fffffc95, 0xfffffc3f00000194, 0x00000521fffffa20,
        0xfffff50800000bdc, 0] := by decide +kernel

/-! ### The commands (sections 4 to 9) -/

/-- V-CMP-3: the low halves do not decide. -/
theorem test_cmp128_high_decides :
    (nextOf (exec .cmp128 (pairs 0 m64 1 0))).map (readValue · 0x47) = some 0xc := by decide +kernel
/-- V-CMP-7: the top bit is not a sign. -/
theorem test_cmp128_unsigned :
    (nextOf (exec .cmp128 (pairs 0x8000000000000000 0 0x7fffffffffffffff m64))).map (readValue · 0x47)
      = some 0x4 := by decide +kernel

/-- V-A64-1: carry from low to high. -/
theorem test_add64_carry :
    (nextOf (exec .add64 (pairs 1 m64 2 3))).map (fun t => (t.rh, t.rl)) = some (4, 2) := by
  decide +kernel
/-- V-A64-4: bit 128 is dropped. -/
theorem test_add64_wraps :
    (nextOf (exec .add64 (pairs m64 m64 m64 m64))).map (fun t => (t.rh, t.rl))
      = some (saturated, 0xfffffffffffffffe) := by decide +kernel

/-- V-ADD-1: carry through two limbs. -/
theorem test_add_carries :
    (nextOf (exec (.add 2 0 1) (loaded (el [m64, m64]) (el [1]) ms))).map (·.elem 2)
      = some (el [0, 0, 1]) := by decide +kernel
/-- V-ADD-5: every limb carries, the last carry is dropped. -/
theorem test_add_wraps :
    (nextOf (exec (.add 2 0 1) (loaded (el (List.replicate 6 0x8000000000000000))
      (el (List.replicate 6 0x8000000000000000)) ms))).map (·.elem 2)
      = some (el [0, 1, 1, 1, 1, 1]) := by decide +kernel

/-- V-SUB-5: the borrow is numeric, not limb 0's. -/
theorem test_sub_borrow :
    (nextOf (exec (.sub 2 0 1) (loaded (el [1]) (el [0, 1]) ms))).map
        (fun t => (t.elem 2, readValue t 0x47))
      = some (el [1, m64, m64, m64, m64, m64], 1) := by decide +kernel
/-- V-SUB-1: a borrow repaid in limb 2. -/
theorem test_sub_borrow_repaid :
    (nextOf (exec (.sub 2 0 1) (loaded (el [0, 0, 1]) (el [1]) ms))).map
        (fun t => (t.elem 2, readValue t 0x47))
      = some (el [m64, m64], 0) := by decide +kernel

/-- V-LTE-1: false although `val(x) ≤ val(y)`. -/
theorem test_lte_not_numeric :
    (nextOf (exec (.lte 0 1) (loaded (el [1]) (el [0, 1]) ms))).map (readValue · 0x47) = some 0 := by
  decide +kernel
/-- V-LTE-8. -/
theorem test_lte_every_limb :
    (nextOf (exec (.lte 0 1) (loaded (el [1, 2, 3, 4, 5, 6]) (el [2, 3, 4, 5, 6, 7]) ms))).map
      (readValue · 0x47) = some 2 := by decide +kernel

/-- V-ADDMOD-3: a correction the predicate misses. -/
theorem test_addmod_missed_correction :
    (nextOf (exec (.addmod 2 0 1 7) (loaded (el [0, 1]) (el [0, 1]) ms))).map (·.elem 2)
      = some (el [0, 2]) := by decide +kernel
/-- V-ADDMOD-8: the destination is the modulus register. -/
theorem test_addmod_over_modulus :
    (nextOf (exec (.addmod 7 0 1 7) (loaded (el [4, 1]) (el [1]) ms))).map (·.elem 7)
      = some (el []) := by decide +kernel

/-- V-SUBMOD-1: the modulus is added back, and `BORROW` is not written. -/
theorem test_submod_adds_back :
    (nextOf (exec (.submod 2 0 1 7) (loaded (el [1]) (el [2]) ms))).map
        (fun t => (t.elem 2, t.status.borrow))
      = some (el [4, 1], false) := by decide +kernel
/-- V-SUBMOD-11: no borrow, no correction. -/
theorem test_submod_no_correction :
    (nextOf (exec (.submod 2 0 1 7) (loaded (el [0, 0, 0, 0, 0, 1]) (el []) ms))).map (·.elem 2)
      = some (el [0, 0, 0, 0, 0, 1]) := by decide +kernel

/-- V-MUL-7 (b): a fix-up with reduced operands. -/
theorem test_mulmod_fix_up :
    (nextOf (exec (.mulmod 2 0 1 7) (loaded p381m1 p381m1 p381 inv381))).map (·.elem 2)
      = some (el [0xf4d38259380b4820, 0x7fe11274d898fafb, 0x343ea97914956dc8, 0x1797ab1458a88de9,
          0xed5e64273c4f538b, 0x14fec701e8fb0ce9]) := by decide +kernel
/-- V-MUL-6: the final correction is missed. -/
theorem test_mulmod_missed_correction :
    (nextOf (exec (.mulmod 2 0 1 7) (loaded xMul6 yMul6 p381 inv381))).map (·.elem 2)
      = some (el [0xf2e6f36c3629287d, 0x06d7524c471b34e8, 0x3323c7d29d7daf74, 0xcab06f762097c8d1,
          0xc5c08bc9c1d07f5e, 0x1b03076189298030]) := by decide +kernel

/-! ### The port (section 10) -/

/-- V-ILL-5, V-PORT-2, V-PORT-4, V-PORT-5, V-PORT-7: only `ILL` is set. -/
theorem test_illegal_requests :
    readAfter (issued (wrEvent 0x48 0x15)) 0x47 = some 0x10
    ∧ readAfter (issued (wrEvent 0x06 5)) 0x47 = some 0x10
    ∧ readAfter (issued (wrEvent 0x06 5)) 0x06 = some 0
    ∧ readAfter (issued (wrEvent 0x47 0)) 0x47 = some 0x10
    ∧ readAfter (issued (wrEvent 0x45 7)) 0x45 = some 0
    ∧ readAfter (issued (wrEvent 0x49 1)) 0x47 = some 0x10 := by decide +kernel

/-- V-PORT-8. -/
theorem test_limb_write : readAfter (issued (wrEvent 0x1d 9)) 0x1d = some 9 := by decide +kernel

/-- V-PORT-1, V-PORT-3, V-PORT-6: the word 0 comes back and no flag is set. -/
theorem test_reads_that_hit_nothing :
    (nextOf (step (issued (rdEvent 0x06)))).map (fun t => (t.returned, t.status)) = some ([0], Status.reset)
    ∧ (nextOf (step (issued (rdEvent 0x48)))).map (fun t => (t.returned, t.status))
        = some ([0], Status.reset)
    ∧ (nextOf (step (issued (rdEvent 0xff)))).map (fun t => (t.returned, t.status))
        = some ([0], Status.reset) := by decide +kernel

/-- R147: a `Reset` leaves words that nothing fixes, the first of them in `E[0][0]`, and clears `ILL`. -/
theorem test_reset : ∃ t, step { (issued .reset).setIll with draws := 7 } = .next t
    ∧ (t.elem 0)[0] = Config.freeWord 7 0 ∧ t.rl = Config.freeWord 61 0 ∧ t.status.ill = false :=
  ⟨_, rfl, rfl, rfl, rfl⟩

/-- R38. -/
theorem test_second_host_refused :
    step (issued (.foreign (.read 0x47))) = .refused .severalHosts := rfl

/-! ### Witnesses: states and operands that meet the hypotheses of each statement, at the ends of their
ranges. A statement not named here has no hypothesis. -/

/-- The conditions of section 9's vectors with `P381`: the operands `P381 − 1` are the largest reduced. -/
theorem pre381 : MontgomeryPre p381m1 p381m1 p381 inv381 :=
  ⟨by unfold InverseConstant; decide +kernel, by unfold Reduced; decide +kernel,
    by unfold Reduced; decide +kernel, by decide +kernel⟩

/-- Only the command issued is issued. -/
theorem issued_only {i j : Instr} (hi : decode (encodeDatum i) = .command i)
    (h : IssuesNext j (issued (issue i))) : j = i := by
  obtain ⟨v, rest, hp, hv⟩ := h
  have he : wrEvent cmdAddr (encodeDatum i) = .transact (.write 0x48 v) := (List.cons.inj hp).1
  simp only [wrEvent, HostEvent.transact.injEq, Transaction.write.injEq] at he
  rw [← he.2, hi] at hv
  exact (Decoded.command.inj hv).symm

theorem issued_not_reset (i : Instr) : ¬ ResetNext (issued (issue i)) :=
  fun ⟨_, h⟩ => HostEvent.noConfusion (List.cons.inj h).1

theorem witness_CommandHasOneDatum : decode 0xfff8 = .command (.mulmod 7 7 7 7) := by decide

/-- A word of some row, and one of none. -/
theorem witness_DecodeAgreesWithOpcodeTable :
    (⟨"LTE", .R2, 0x00000005, 0xFFFFE07F⟩ ∈ opcodeTable
      ∧ (0x00000b85 : CmdWord) &&& 0xFFFFE07F = 0x00000005)
    ∧ ∀ row ∈ opcodeTable, (0x9 : CmdWord) &&& row.mask ≠ row.matchBits := by decide

/-- One datum for each way to be malformed, and the largest that is not. -/
theorem witness_MalformedDatumOnlySetsIll :
    MalformedDatum 0x10008 ∧ MalformedDatum 0x10 ∧ MalformedDatum 0xfff9 ∧ MalformedDatum 0x8001
    ∧ MalformedDatum 0x12 ∧ MalformedDatum 0x2003 ∧ MalformedDatum 0xe004 ∧ MalformedDatum 0x75
    ∧ MalformedDatum 0x2005 ∧ ¬ MalformedDatum 0xfff8 := by
  refine ⟨?_, ?_, ?_, ?_, ?_, ?_, ?_, ?_, ?_, ?_⟩ <;> (dsimp only [MalformedDatum]; decide)

theorem witness_StepRunsDecodedCommand :
    (issued (.transact (.write 0x48 0x423))).pending = .transact (.write 0x48 0x423) :: []
    ∧ decode 0x423 = .command (.add 2 0 1) := by decide

theorem witness_FetchWordRunsNext : decodeTableWord 32 0xe426 = some (.addmod 2 0 1 7) := by decide

/-- An event of each of the two kinds the clauses separate. -/
theorem witness_StepStopsOnlyOnSecondHost :
    (∀ tr rest, State.reset.pending ≠ .foreign tr :: rest)
    ∧ (issued (.foreign (.read 0))).pending = .foreign (.read 0) :: [] :=
  ⟨fun _ _ h => (nomatch h), rfl⟩

/-- A read, and an event that is no read. -/
theorem witness_EventsPerformedInOrder :
    (∃ t, (issued (.transact (.read 0x47))).pending = .transact (.read 0x47) :: []
      ∧ step (issued (.transact (.read 0x47))) = .next t)
    ∧ (∃ t, (issued .reset).pending = .reset :: [] ∧ step (issued .reset) = .next t
      ∧ ∀ a, HostEvent.reset ≠ .transact (.read a)) :=
  ⟨⟨_, rfl, rfl⟩, ⟨_, rfl, rfl, fun _ h => (nomatch h)⟩⟩

theorem witness_QuiescentWithoutEvents : State.reset.pending = [] := rfl

theorem witness_ScalarAddressMap : 0x49 ≤ (0x49 : Addr).toNat ∧ 0x49 ≤ (0xff : Addr).toNat := by decide

theorem witness_PortReadReturnsRegister :
    (issued (.transact (.read 0x2d))).pending = .transact (.read 0x2d) :: [] := rfl

/-- The first and last holes, the ends of the unmapped tail, and the addresses beside them. -/
theorem witness_AccessesThatHitNothing :
    UnmappedAddr 0x06 ∧ UnmappedAddr 0x07 ∧ UnmappedAddr 0x3e ∧ UnmappedAddr 0x3f ∧ UnmappedAddr 0x49
    ∧ UnmappedAddr 0xff ∧ ¬ UnmappedAddr 0x05 ∧ ¬ UnmappedAddr 0x08 ∧ ¬ UnmappedAddr 0x40
    ∧ ¬ UnmappedAddr 0x48 := by
  unfold UnmappedAddr; decide

theorem witness_PortWriteReadBack :
    ReadWriteAddr 0x00 ∧ ReadWriteAddr 0x05 ∧ ReadWriteAddr 0x38 ∧ ReadWriteAddr 0x3d ∧ ReadWriteAddr 0x40
    ∧ ReadWriteAddr 0x44 ∧ ¬ ReadWriteAddr 0x06 ∧ ¬ ReadWriteAddr 0x3e ∧ ¬ ReadWriteAddr 0x45
    ∧ (0xff : Addr) ≠ 0x00 := by
  unfold ReadWriteAddr; decide

theorem witness_LdeLoadsElement :
    ({ State.reset with pending := lde 7 p381 ++ [.reset] } : State).pending = lde 7 p381 ++ [.reset] := rfl

theorem witness_RdeReturnsElement :
    ({ State.reset with pending := rde 7 } : State).pending = rde 7 ++ [] := by decide

/-- A reset issued to a block with `ILL = 1`: both clauses. -/
theorem witness_ResetClearsStatus :
    (issued .reset).setIll.pending = .reset :: []
    ∧ ∃ t, step (issued .reset).setIll = .next t ∧ (issued .reset).setIll.status.ill = true
      ∧ t.status.ill = false :=
  ⟨rfl, _, rfl, rfl, rfl⟩

theorem witness_ResetDrawsFreshWords : (issued .reset).pending = .reset :: [] := rfl

/-- `CMP128` is next, so neither `SUB` nor `LTE` is; `SUB` is next, so `CMP128` is not. -/
theorem witness_FlagWritePolicy :
    (∃ t, step (issued (issue .cmp128)) = .next t ∧ ¬ ResetNext (issued (issue .cmp128))
      ∧ (∀ rd rs1 rs2, ¬ IssuesNext (.sub rd rs1 rs2) (issued (issue .cmp128)))
      ∧ (∀ rs1 rs2, ¬ IssuesNext (.lte rs1 rs2) (issued (issue .cmp128))))
    ∧ (∃ t, step (issued (issue (.sub 4 3 0))) = .next t ∧ ¬ ResetNext (issued (issue (.sub 4 3 0)))
      ∧ ¬ IssuesNext .cmp128 (issued (issue (.sub 4 3 0)))) := by
  have hc : decode (encodeDatum .cmp128) = .command .cmp128 := by decide
  have hs : decode (encodeDatum (.sub 4 3 0)) = .command (.sub 4 3 0) := by decide
  exact ⟨⟨_, rfl, issued_not_reset _, fun _ _ _ h => (nomatch issued_only hc h),
      fun _ _ h => (nomatch issued_only hc h)⟩,
    ⟨_, rfl, issued_not_reset _, fun h => (nomatch issued_only hs h)⟩⟩

/-- A step that sets `ILL` and one that does not, both from `ILL = 0`; and the ends of the ranges of
R131. -/
theorem witness_IllSetExactlyByIllegalWrites :
    (∃ t, step (issued (wrEvent 0x48 0x9)) = .next t ∧ (issued (wrEvent 0x48 0x9)).status.ill = false
      ∧ t.status.ill = true)
    ∧ (∃ t, step (issued (rdEvent 0x06)) = .next t ∧ t.status.ill = false)
    ∧ NonWritableAddr 0x06 ∧ NonWritableAddr 0x3f ∧ NonWritableAddr 0x45 ∧ NonWritableAddr 0x46
    ∧ NonWritableAddr 0x47 ∧ NonWritableAddr 0x49 ∧ NonWritableAddr 0xff ∧ ¬ NonWritableAddr 0x44
    ∧ ¬ NonWritableAddr 0x48 ∧ ¬ NonWritableAddr 0x3d := by
  refine ⟨⟨_, rfl, rfl, rfl⟩, ⟨_, rfl, rfl⟩, ?_⟩
  unfold NonWritableAddr; decide

theorem witness_IllDoesNotAffectCommands : ∃ t, exec (.sub 2 0 1) State.reset = .next t := ⟨_, rfl⟩

theorem witness_StatusLayout : (5 : Nat) ≤ 5 ∧ (5 : Nat) ≤ 63 := by decide

theorem witness_CmpCodeStaysLegal :
    CmpLegal (issued (issue .cmp128)) ∧ ∃ t, step (issued (issue .cmp128)) = .next t :=
  ⟨by unfold CmpLegal; decide, _, rfl⟩

/-- `ADD` writes `E[2]`: not `ADD64`, and no other element register. -/
theorem witness_CommandFrame :
    (∃ t, exec (.add 2 0 1) State.reset = .next t) ∧ Instr.add 2 0 1 ≠ .add64
    ∧ (Instr.add 2 0 1).dest ≠ some 3 :=
  ⟨⟨_, rfl⟩, by decide, by decide⟩

/-- The addresses on both sides of `E[2]`'s six words, and `STATUS`. -/
theorem witness_ElementCommandReadFrame :
    (Instr.add 2 0 1).dest = some 2 ∧ (∃ t, exec (.add 2 0 1) State.reset = .next t)
    ∧ (∀ a ∈ [(0x0f : Addr), 0x16, 0x47],
        (a = 0x47 → (Instr.add 2 0 1).mnemonic ≠ "SUB")
        ∧ ¬ (8 * (2 : EReg).val ≤ a.toNat ∧ a.toNat ≤ 8 * (2 : EReg).val + 5)) :=
  ⟨by decide, ⟨_, rfl⟩, by decide⟩

/-- V-CMP-4, 6 and 8: each order. -/
theorem witness_Cmp128Result :
    (pairs 5 7 5 8).ah.toNat * 2 ^ 64 + (pairs 5 7 5 8).al.toNat
      < (pairs 5 7 5 8).bh.toNat * 2 ^ 64 + (pairs 5 7 5 8).bl.toNat
    ∧ (pairs m64 m64 m64 m64).ah.toNat * 2 ^ 64 + (pairs m64 m64 m64 m64).al.toNat
      = (pairs m64 m64 m64 m64).bh.toNat * 2 ^ 64 + (pairs m64 m64 m64 m64).bl.toNat
    ∧ (pairs 0 1 0 0).bh.toNat * 2 ^ 64 + (pairs 0 1 0 0).bl.toNat
      < (pairs 0 1 0 0).ah.toNat * 2 ^ 64 + (pairs 0 1 0 0).al.toNat := by decide +kernel

/-- V-ADDMOD-1 corrects, V-ADDMOD-3 does not, though its sum is numerically above the modulus. -/
theorem witness_AddmodResult :
    Dominates (elemOfNat ((elemVal (el [4, 1]) + elemVal (el [1])) % 2 ^ 384)) ms
    ∧ ¬ Dominates (elemOfNat ((elemVal (el [0, 1]) + elemVal (el [0, 1])) % 2 ^ 384)) ms := by
  unfold Dominates; decide +kernel

/-- V-SUBMOD-2 (equal operands) and V-SUBMOD-1. -/
theorem witness_SubmodResult :
    elemVal (el [4, 1]) ≤ elemVal (el [4, 1]) ∧ elemVal (el [1]) < elemVal (el [2]) := by decide +kernel

/-- The setup of V-MUL-7 (b). -/
theorem witness_MulmodMontgomeryValue :
    MontgomeryPre ((loaded p381m1 p381m1 p381 inv381).elem 0) ((loaded p381m1 p381m1 p381 inv381).elem 1)
      ((loaded p381m1 p381m1 p381 inv381).elem 7) (loaded p381m1 p381m1 p381 inv381).inv :=
  pre381

theorem witness_LteIsProductOrder :
    lteElem p381m1 p381 = true ∧ lteElem p381 p381 = true ∧ lteElem (el []) p381m1 = true
    ∧ (el [0, 0, 0, 0, 0, 1])[(5 : Fin 6)].toNat < (el [0, 0, 0, 0, 0, 2])[(5 : Fin 6)].toNat := by
  decide +kernel

/-- V-MUL-5's copy dominates `P381`. -/
theorem witness_CorrectionNeverBorrows :
    lteElem p381 (el [0xc64e3648fb6bf5ac, 0xc40bc0ca8c5b8e0f, 0x8de4d3af03ceef86, 0xfe3916be902841ba,
      0x53f6c94f580a9b02, 0x1b5d6cb6a06bb7b8]) = true := by decide +kernel

/-- V-ADDMOD-5 (the sum is the modulus), V-ADDMOD-3 (missed correction), V-ADDMOD-10 (lost carry). -/
theorem witness_AddmodClosureCondition :
    (Reduced p381m1 p381 ∧ Reduced (el [1]) p381 ∧ elemVal p381m1 + elemVal (el [1]) < 2 ^ 384)
    ∧ (Reduced (el [0, 1]) ms ∧ elemVal (el [0, 1]) + elemVal (el [0, 1]) < 2 ^ 384
      ∧ elemVal ms ≤ elemVal (el [0, 1]) + elemVal (el [0, 1])
      ∧ ¬ Dominates (elemOfNat (elemVal (el [0, 1]) + elemVal (el [0, 1]))) ms)
    ∧ (Reduced (el [0xfffffffffffffec2, m64, m64, m64, m64, m64]) mbig
      ∧ 2 ^ 384 ≤ elemVal (el [0xfffffffffffffec2, m64, m64, m64, m64, m64])
        + elemVal (el [0xfffffffffffffec2, m64, m64, m64, m64, m64])) := by
  unfold Reduced Dominates; decide +kernel

/-- Each order of the operands. -/
theorem witness_SubmodIsModularDifference :
    Reduced (el []) p381 ∧ Reduced p381m1 p381 ∧ elemVal (el []) ≤ elemVal p381m1
    ∧ elemVal (el []) < elemVal p381m1 := by
  unfold Reduced; decide +kernel

/-- `P381 − 1`, 1 and 0 with `P381`: all four sums of R118 are reduced. -/
theorem witness_AddmodAssociativityCondition :
    Reduced p381m1 p381 ∧ Reduced (el [1]) p381 ∧ Reduced (el []) p381 ∧ elemVal p381 ≤ 2 ^ 383
    ∧ Reduced (addmod p381m1 (el [1]) p381) p381 ∧ Reduced (addmod (el [1]) (el []) p381) p381
    ∧ Reduced (addmod (addmod p381m1 (el [1]) p381) (el []) p381) p381
    ∧ Reduced (addmod p381m1 (addmod (el [1]) (el []) p381) p381) p381 := by
  unfold Reduced; decide +kernel

theorem witness_RippleAddsOne : (12 : Nat) ≤ 12 ∧ (11 : Fin 13).val < 12 := by decide

theorem witness_AccumulatorTopLimbBound : (6 : Nat) ≤ 6 ∧ (0 : Nat) ≤ 6 := by decide

/-- The hypothesis, and a limb of each of the two kinds the first clause speaks of. -/
theorem witness_MontgomeryAccumulator :
    MontgomeryPre p381m1 p381m1 p381 inv381 ∧ (5 : Fin 13).val < 6 ∧ (12 : Fin 13).val = 12 :=
  ⟨pre381, by decide, by decide⟩

/-- The setup of V-MUL-6, whose result is not reduced. -/
theorem witness_MulmodReductionCondition :
    MontgomeryPre xMul6 yMul6 p381 inv381 ∧ ¬ Reduced (mulmod xMul6 yMul6 p381 inv381) p381 := by
  refine ⟨⟨pre381.inverse, ?_, ?_, pre381.modulus_le⟩, ?_⟩ <;> (unfold Reduced; decide +kernel)

/-- The three constants for `P381`, and a result that is reduced. -/
theorem witness_MontgomeryRoundTrip :
    MontgomeryPre p381m1 (elemOfNat (2 ^ 384 % elemVal p381)) p381 inv381
    ∧ Reduced (mulmod p381m1 (elemOfNat (2 ^ 384 % elemVal p381)) p381 inv381) p381
    ∧ MontgomeryPre p381m1 (elemOfNat (2 ^ 768 % elemVal p381)) p381 inv381
    ∧ MontgomeryPre p381m1 #v[1, 0, 0, 0, 0, 0] p381 inv381 := by
  refine ⟨⟨pre381.inverse, pre381.x_reduced, ?_, pre381.modulus_le⟩, ?_,
    ⟨pre381.inverse, pre381.x_reduced, ?_, pre381.modulus_le⟩,
    ⟨pre381.inverse, pre381.x_reduced, ?_, pre381.modulus_le⟩⟩ <;> (unfold Reduced; decide +kernel)

theorem witness_MulmodZeroOperand : elemVal (el []) = 0 := by decide +kernel

/-- The destination may be a source in one of the two. -/
theorem witness_AliasingSafe :
    (Instr.mulmod 7 0 1 7).dest = some 7 ∧ (∃ t, exec (.mulmod 7 0 1 7) State.reset = .next t)
    ∧ (∃ t, exec ((Instr.mulmod 7 0 1 7).withDest 2) State.reset = .next t) :=
  ⟨rfl, ⟨_, rfl⟩, ⟨_, rfl⟩⟩

theorem witness_CommandsIdempotent :
    (∀ rd, (Instr.sub 2 0 1).dest = some rd → rd ∉ (Instr.sub 2 0 1).sources)
    ∧ ∃ t, exec (.sub 2 0 1) State.reset = .next t :=
  ⟨by decide, _, rfl⟩

/-- Two states that differ in `E[3]` and agree on what `MULMOD e2, e0, e1, e7` reads. -/
theorem witness_ResultsDependOnSourcesOnly :
    let s := loaded p381m1 p381m1 p381 inv381
    let s' := s.setElem 3 ms
    s ≠ s' ∧ (∀ r ∈ (Instr.mulmod 2 0 1 7).sources, s.elem r = s'.elem r)
    ∧ s.inv = s'.inv ∧ s.ah = s'.ah ∧ s.al = s'.al ∧ s.bh = s'.bh ∧ s.bl = s'.bl
    ∧ (∃ t, exec (.mulmod 2 0 1 7) s = .next t) ∧ (∃ t, exec (.mulmod 2 0 1 7) s' = .next t) :=
  ⟨by decide +kernel, by decide +kernel, rfl, rfl, rfl, rfl, rfl, ⟨_, rfl⟩, ⟨_, rfl⟩⟩

/-- `CMP128` and `ADD64` run at reset. -/
theorem witness_helpers_complete :
    (∃ t, exec .cmp128 State.reset = .next t) ∧ (∃ t, exec .add64 State.reset = .next t) :=
  ⟨⟨_, rfl⟩, ⟨_, rfl⟩⟩

end Sys2Proof.Tests
end

/-! Proofs of the state family: setting `ILL` against the other register operations, `STATUS` as a bit
string, and all that one command and one step can do to `STATUS`. -/

namespace Sys2Proof.Machine

/-! Setting `ILL` is seen by no operand read and commutes with every register write. -/

@[simp] theorem State.setIll_firstPair (s : State) : s.setIll.firstPair = s.firstPair := rfl
@[simp] theorem State.setIll_secondPair (s : State) : s.setIll.secondPair = s.secondPair := rfl

@[simp] theorem State.setIll_setElem (s : State) (r : EReg) (v : Elem) :
    s.setIll.setElem r v = (s.setElem r v).setIll := rfl
@[simp] theorem State.setIll_setBorrow (s : State) (b : Bool) :
    s.setIll.setBorrow b = (s.setBorrow b).setIll := rfl
@[simp] theorem State.setIll_setLte (s : State) (b : Bool) :
    s.setIll.setLte b = (s.setLte b).setIll := rfl
@[simp] theorem State.setIll_setCmp (s : State) (o : Ordering) :
    s.setIll.setCmp o = (s.setCmp o).setIll := rfl
@[simp] theorem State.setIll_setResultPair (s : State) (w : Wide) :
    s.setIll.setResultPair w = (s.setResultPair w).setIll := rfl

/-! The operand pairs are the four scalar registers and nothing else (R15). -/

theorem State.firstPair_congr {s s' : State} (hh : s.ah = s'.ah) (hl : s.al = s'.al) :
    s.firstPair = s'.firstPair := by
  simp only [State.firstPair, hh, hl]

theorem State.secondPair_congr {s s' : State} (hh : s.bh = s'.bh) (hl : s.bl = s'.bl) :
    s.secondPair = s'.secondPair := by
  simp only [State.secondPair, hh, hl]

/-! `STATUS` as the port reads it. -/

/-- The fields of `STATUS` side by side, `BORROW` lowest and zeros above `ILL` (R17). -/
theorem Status.word_eq_append (f : Status) :
    f.word = (BitVec.ofBool f.ill ++ f.cmp ++ BitVec.ofBool f.lte ++ BitVec.ofBool f.borrow).setWidth 64 := by
  obtain ⟨borrow, lte, cmp, ill⟩ := f
  revert borrow lte cmp ill
  decide

/-- The bits of `STATUS` one by one (R17). -/
theorem Status.word_getLsbD (f : Status) (k : Nat) :
    f.word.getLsbD k = match k with
      | 0 => f.borrow
      | 1 => f.lte
      | 2 => f.cmp.getLsbD 0
      | 3 => f.cmp.getLsbD 1
      | 4 => f.ill
      | _ + 5 => false := by
  rw [Status.word_eq_append]
  simp only [BitVec.getLsbD_setWidth, BitVec.getLsbD_append, BitVec.getLsbD_ofBool]
  match k with
  | 0 | 1 | 2 | 3 | 4 => simp
  | _ + 5 => simp

theorem readValue_statusAddr (s : State) : readValue s 0x47 = s.status.word := rfl

theorem portWrite_statusAddr (v : Limb) (s : State) : portWrite 0x47 v s = .next s.setIll := rfl

/-- The address of `CMD` is the only one that names it (R32). -/
theorem eq_cmdAddr_of_portReg {a : Addr} (h : portReg a = .cmd) : a = 0x48 :=
  portReg_injective (b := 0x48) h (by simp [h])

/-! What a command and a step can do to `STATUS` (R18 to R21, R24, R146). -/

/-- All a command can do to `STATUS`: write its own flag, or nothing (R21). -/
theorem exec_status {i : Instr} {s t : State} (h : exec i s = .next t) :
    (i = .cmp128 ∧ ∃ o, t.status = { s.status with cmp := cmpCode o })
    ∨ (∃ rd rs1 rs2 b, i = .sub rd rs1 rs2 ∧ t.status = { s.status with borrow := b })
    ∨ (∃ rs1 rs2 b, i = .lte rs1 rs2 ∧ t.status = { s.status with lte := b })
    ∨ t.status = s.status := by
  obtain ⟨rfl, o, rfl⟩ | ⟨-, w, rfl⟩ | ⟨rd, v, -, -, rfl⟩ | ⟨rd, rs1, rs2, v, b, rfl, rfl⟩
    | ⟨rs1, rs2, b, rfl, rfl⟩ := exec_inversion h
  · exact .inl ⟨rfl, o, rfl⟩
  · exact .inr (.inr (.inr rfl))
  · exact .inr (.inr (.inr rfl))
  · exact .inr (.inl ⟨rd, rs1, rs2, b, rfl, rfl⟩)
  · exact .inr (.inr (.inl ⟨rs1, rs2, b, rfl, rfl⟩))

/-- What a port write does to `STATUS`: what the command it issues does, or `ILL <- 1`, or nothing. -/
theorem portWrite_status {a : Addr} {v : Limb} {s t : State} (h : portWrite a v s = .next t) :
    (a = 0x48 ∧ ∃ i, decode v = .command i ∧ exec i s = .next t)
    ∨ t.status = { s.status with ill := true }
    ∨ t.status = s.status := by
  obtain ⟨r, l, -, rfl⟩ | ⟨-, rfl⟩ | ⟨-, rfl⟩ | ⟨-, rfl⟩ | ⟨-, rfl⟩ | ⟨-, rfl⟩ | ⟨ha, i, hd, he⟩
    | ⟨-, -, rfl⟩ | ⟨-, rfl⟩ := portWrite_inversion h
  · exact .inr (.inr rfl)
  · exact .inr (.inr rfl)
  · exact .inr (.inr rfl)
  · exact .inr (.inr rfl)
  · exact .inr (.inr rfl)
  · exact .inr (.inr rfl)
  · exact .inl ⟨eq_cmdAddr_of_portReg ha, i, hd, he⟩
  · exact .inr (.inl rfl)
  · exact .inr (.inl rfl)

/-- All a step can do to `STATUS`: the flag of the command it issues, `Reset`, `ILL <- 1`, or nothing. -/
theorem step_status {s t : State} (h : step s = .next t) :
    (IssuesNext .cmp128 s ∧ ∃ o, t.status = { s.status with cmp := cmpCode o })
    ∨ (∃ rd rs1 rs2 b, IssuesNext (.sub rd rs1 rs2) s ∧ t.status = { s.status with borrow := b })
    ∨ (∃ rs1 rs2 b, IssuesNext (.lte rs1 rs2) s ∧ t.status = { s.status with lte := b })
    ∨ (ResetNext s ∧ t.status = Status.reset)
    ∨ t.status = { s.status with ill := true }
    ∨ t.status = s.status := by
  obtain ⟨-, rfl⟩ | ⟨a, rest, -, rfl⟩ | ⟨a, v, rest, hp, hw⟩ | ⟨rest, hp, rfl⟩ := step_inversion h
  · simp
  · simp [portRead]
  · obtain ⟨rfl, i, hd, he⟩ | hill | hsame := portWrite_status hw
    · have hi : IssuesNext i s := ⟨v, rest, hp, hd⟩
      obtain ⟨rfl, o, ho⟩ | ⟨rd, rs1, rs2, b, rfl, hb⟩ | ⟨rs1, rs2, b, rfl, hb⟩ | hsame :=
        exec_status he
      · exact .inl ⟨hi, o, ho⟩
      · exact .inr (.inl ⟨rd, rs1, rs2, b, hi, hb⟩)
      · exact .inr (.inr (.inl ⟨rs1, rs2, b, hi, hb⟩))
      · simp [hsame]
    · simp [hill]
    · simp [hsame]
  · exact .inr (.inr (.inr (.inl ⟨⟨rest, hp⟩, rfl⟩)))

/-! The obligations of the family. -/

/-- Settles O27: by `step_status` a step leaves `CMP`, resets it, or writes the code of an ordering. -/
theorem cmpCodeStaysLegal : Obligations.CmpCodeStaysLegal := by
  intro s t hlegal hstep
  unfold CmpLegal at *
  obtain ⟨-, o, h⟩ | ⟨-, -, -, b, -, h⟩ | ⟨-, -, b, -, h⟩ | ⟨-, h⟩ | h | h := step_status hstep
  · rw [h]; exact cmpCode_legal o
  · rwa [h]
  · rwa [h]
  · rw [h]; decide
  · rwa [h]
  · rwa [h]

/-- Settles O23: in each case of `step_status` but `Reset`, the one flag written is that of the command
issued. -/
theorem flagWritePolicy : Obligations.FlagWritePolicy := by
  intro s t hstep hreset
  obtain ⟨hi, o, h⟩ | ⟨rd, rs1, rs2, b, hi, h⟩ | ⟨rs1, rs2, b, hi, h⟩ | ⟨hr, -⟩ | h | h :=
    step_status hstep
  · exact ⟨fun _ => by rw [h], fun _ => by rw [h], fun hn => absurd hi hn⟩
  · exact ⟨fun hn => absurd hi (hn rd rs1 rs2), fun _ => by rw [h], fun _ => by rw [h]⟩
  · exact ⟨fun _ => by rw [h], fun hn => absurd hi (hn rs1 rs2), fun _ => by rw [h]⟩
  · exact absurd hr hreset
  · simp [h]
  · simp [h]

/-- Settles O26, reading each field off `Status.word_getLsbD`. -/
theorem statusLayout : Obligations.StatusLayout := by
  intro s
  have hbit := Status.word_getLsbD s.status
  rw [readValue_statusAddr]
  refine ⟨hbit 0, hbit 1, ?cmp, hbit 4, ?upper, fun v => ⟨_, portWrite_statusAddr v s, rfl⟩⟩
  case cmp =>
    apply BitVec.eq_of_getLsbD_eq
    intro k hk
    rw [BitVec.getLsbD_extractLsb', hbit]
    match k with
    | 0 => rfl
    | 1 => rfl
  case upper =>
    intro k hk
    obtain ⟨n, rfl⟩ := Nat.exists_eq_add_of_le' hk
    exact hbit (n + 5)

/-- Settles O29: `exec_inversion` names the one register each command writes, and the write leaves the
rest alone. -/
theorem commandFrame : Obligations.CommandFrame := by
  intro i s t h
  obtain ⟨rfl, o, rfl⟩ | ⟨rfl, w, rfl⟩ | ⟨rd, v, hd, -, rfl⟩ | ⟨rd, rs1, rs2, v, b, rfl, rfl⟩
    | ⟨rs1, rs2, b, rfl, rfl⟩ := exec_inversion h
  · simp [SameHostSide]
  · simp [SameHostSide]
  · have helem (r : EReg) (hr : i.dest ≠ some r) : (s.setElem rd v).elem r = s.elem r :=
      s.elem_setElem_ne v (fun e => hr (e ▸ hd))
    simpa [SameHostSide] using helem
  · have helem (r : EReg) (hr : r ≠ rd) : (s.setElem rd v).elem r = s.elem r :=
      s.elem_setElem_ne v hr
    simpa [SameHostSide, Instr.dest, eq_comm] using helem
  · simp [SameHostSide]

/-- Settles O59: the pairs, or the sources and `INV`, are all that the value written is computed from. -/
theorem resultsDependOnSourcesOnly : Obligations.ResultsDependOnSourcesOnly := by
  intro i s s' t t' hsrc hinv hpair h h'
  cases i
  case cmp128 | add64 =>
    cases h; cases h'
    obtain ⟨hah, hal, hbh, hbl⟩ := hpair (by simp)
    have hfirst := State.firstPair_congr hah hal
    have hsecond := State.secondPair_congr hbh hbl
    simp [hfirst, hsecond, Instr.dest, Instr.mnemonic]
  case add | sub | lte | addmod | submod =>
    cases h; cases h'
    simp only [Instr.sources, List.forall_mem_cons] at hsrc
    simp [hsrc, Instr.dest, Instr.mnemonic]
  case mulmod =>
    cases h; cases h'
    simp only [Instr.sources, List.forall_mem_cons] at hsrc
    simp [hsrc, hinv rfl, Instr.dest, Instr.mnemonic]

/-- Settles O25: `setIll` changes no operand and commutes with the write of each of the eight commands. -/
theorem illDoesNotAffectCommands : Obligations.IllDoesNotAffectCommands := by
  intro i s t h
  cases i <;> cases h <;> simp

end Sys2Proof.Machine

/-! Proofs of the memory family: the address map against the address classes of the statements, reads and
writes at the level of the register an address names, and what one event does to the host's two lists. -/

namespace Sys2Proof.Machine

/-! The address map (R31, R32). -/

/-- `UnmappedAddr` lists exactly the addresses that name no register. -/
theorem unmappedAddr_iff : ∀ a : Addr, UnmappedAddr a ↔ portReg a = .unmapped := by
  unfold UnmappedAddr; decide +kernel

/-- `ReadWriteAddr` lists exactly the addresses of the read-write registers. -/
theorem readWriteAddr_iff : ∀ a : Addr, ReadWriteAddr a ↔ (portReg a).access = .readWrite := by
  unfold ReadWriteAddr; decide +kernel

theorem portReg_holes : ∀ r : EReg, portReg (BitVec.ofNat 8 (8 * r.val + 6)) = .unmapped
    ∧ portReg (BitVec.ofNat 8 (8 * r.val + 7)) = .unmapped := by decide

theorem elemAddr_toNat (r : EReg) (l : Fin 6) : (elemAddr r l).toNat = 8 * r.val + l.val := by
  have := r.isLt
  have := l.isLt
  rw [elemAddr, BitVec.toNat_ofNat]
  omega

/-- An address that names limb `l` of `E[r]` is the number `8·r + l`. -/
theorem toNat_of_portReg_elem {a : Addr} {r : EReg} {l : Fin 6} (h : portReg a = .elem r l) :
    a.toNat = 8 * r.val + l.val := by
  have ha : a = elemAddr r l := portReg_injective (h.trans (portReg_elemAddr r l).symm) (by simp [h])
  rw [ha, elemAddr_toNat]

/-- The address of `STATUS` is the only one that names it (R32). -/
theorem eq_statusAddr_of_portReg {a : Addr} (h : portReg a = .status) : a = 0x47 :=
  portReg_injective (b := 0x47) h (by simp [h])

/-! What the port reads after a register write. -/

/-- A write to `E[r]` is seen at no register but its six limbs. -/
theorem regValue_setElem_ne (s : State) {r : EReg} (x : Elem) {p : PortReg} (h : ∀ l, p ≠ .elem r l) :
    regValue (s.setElem r x) p = regValue s p := by
  cases p with
  | elem r' l' =>
    have hr : r' ≠ r := fun e => h l' (e ▸ rfl)
    simp only [regValue, s.elem_setElem_ne x hr]
  | _ => rfl

/-- A limb write is seen at no register but that limb. -/
theorem regValue_setLimb_ne (s : State) {r : EReg} {l : Fin 6} (v : Limb) {p : PortReg}
    (h : p ≠ .elem r l) : regValue (s.setLimb r l v) p = regValue s p := by
  by_cases hp : ∃ l', p = .elem r l'
  · obtain ⟨l', rfl⟩ := hp
    have hl : l' ≠ l := fun e => h (e ▸ rfl)
    simp only [regValue, State.setLimb_elem_get, if_neg hl]
  · exact regValue_setElem_ne s _ (not_exists.mp hp)

/-- Writing `BORROW` is seen at `STATUS` only. -/
theorem regValue_setBorrow_ne (s : State) (b : Bool) {p : PortReg} (h : p ≠ .status) :
    regValue (s.setBorrow b) p = regValue s p := by
  cases p with
  | status => exact absurd rfl h
  | _ => rfl

/-- A limb holds what was written there, so writing it again changes nothing. -/
theorem State.setLimb_setLimb_self (s : State) (r : EReg) (l : Fin 6) (v : Limb) :
    (s.setLimb r l v).setLimb r l v = s.setLimb r l v := by
  simp [State.setLimb, State.setElem_setElem]

/-- The port's view of a write to an element register: every address outside its six words reads as
before. -/
theorem readValue_setElem_of_outside (s : State) (r : EReg) (x : Elem) {a : Addr}
    (h : ¬ (8 * r.val ≤ a.toNat ∧ a.toNat ≤ 8 * r.val + 5)) :
    readValue (s.setElem r x) a = readValue s a := by
  refine regValue_setElem_ne s x fun l hl => h ?_
  have := toNat_of_portReg_elem hl
  have := l.isLt
  omega

theorem readValue_setBorrow_ne (s : State) (b : Bool) {a : Addr} (h : a ≠ 0x47) :
    readValue (s.setBorrow b) a = readValue s a :=
  regValue_setBorrow_ne s b fun hp => h (eq_statusAddr_of_portReg hp)

/-! Writes by the access right of the register they name (R36, R40). -/

/-- A write to a read-write register: read back, seen nowhere else, and idempotent. -/
theorem writeReg_of_readWrite (v : Limb) (s : State) {p : PortReg} (h : p.access = .readWrite) :
    ∃ t, writeReg v s p = .next t ∧ regValue t p = v ∧ (∀ q, q ≠ p → regValue t q = regValue s q)
      ∧ t.status = s.status ∧ SameHostSide s t ∧ writeReg v t p = .next t := by
  cases p with
  | elem r l =>
    have hback : regValue (s.setLimb r l v) (.elem r l) = v := by
      simp only [regValue, State.setLimb_elem_get, if_pos]
    have hagain : writeReg v (s.setLimb r l v) (.elem r l) = .next (s.setLimb r l v) :=
      congrArg Host.Outcome.next (s.setLimb_setLimb_self r l v)
    exact ⟨_, rfl, hback, fun q hq => regValue_setLimb_ne s v hq, rfl, ⟨rfl, rfl, rfl⟩, hagain⟩
  | inv | ah | al | bh | bl =>
    refine ⟨_, rfl, rfl, fun q hq => ?_, rfl, ⟨rfl, rfl, rfl⟩, rfl⟩
    cases q <;> simp_all [regValue, State.elem]
  | rh | rl | status | cmd | unmapped => cases h

/-- A write to a read-only register or to nothing is an illegal request. -/
theorem writeReg_of_not_writable (v : Limb) (s : State) {p : PortReg}
    (h : p.access = .readOnly ∨ p.access = .none) : writeReg v s p = .next s.setIll := by
  cases p with
  | rh | rl | status | unmapped => rfl
  | elem | inv | ah | al | bh | bl | cmd => simp [PortReg.access] at h

theorem onlyIllSet_setIll (s : State) : OnlyIllSet s s.setIll :=
  ⟨fun _ => rfl, ⟨rfl, rfl, rfl, rfl, rfl, rfl, rfl⟩, rfl, rfl, rfl, rfl⟩

/-- A datum that decodes to a command, written to `CMD`, is that command (R40). -/
theorem portWrite_cmdAddr {v : Limb} {i : Instr} (h : decode v = .command i) (s : State) :
    portWrite 0x48 v s = exec i s := by
  change issueCommand v s = exec i s
  rw [issueCommand, h]

theorem decode_tableDatum {nbits w : Nat} {i : Instr} (h : decodeTableWord nbits w = some i) :
    decode (tableDatum nbits w) = .command i := by
  unfold decodeTableWord at h
  split at h
  · cases hd : decode (tableDatum nbits w) with
    | command j => rw [hd] at h; rw [Option.some.inj h]
    | malformed why => rw [hd] at h; cases h
  · cases h

/-! A port write, whether it runs a command or not, leaves the host's side alone (assumptions 2 to 4). -/

theorem exec_hostSide {i : Instr} {s t : State} (h : exec i s = .next t) : SameHostSide s t := by
  obtain ⟨-, -, -, -, -, -, -, hhost⟩ := commandFrame i s t h
  exact hhost

theorem portWrite_hostSide {a : Addr} {v : Limb} {s t : State} (h : portWrite a v s = .next t) :
    SameHostSide s t := by
  obtain ⟨r, l, -, rfl⟩ | ⟨-, rfl⟩ | ⟨-, rfl⟩ | ⟨-, rfl⟩ | ⟨-, rfl⟩ | ⟨-, rfl⟩ | ⟨-, i, -, he⟩
    | ⟨-, -, rfl⟩ | ⟨-, rfl⟩ := portWrite_inversion h
  pick_goal 7
  · exact exec_hostSide he
  all_goals exact ⟨rfl, rfl, rfl⟩

/-! The obligations of the family. -/

/-- Settles O11: the four cases of `step_inversion`, a write by `portWrite_hostSide`. -/
theorem eventsPerformedInOrder : Obligations.EventsPerformedInOrder := by
  intro s t e rest hp hstep
  obtain ⟨hp', -⟩ | ⟨a, rest', hp', rfl⟩ | ⟨a, v, rest', hp', hw⟩ | ⟨rest', hp', rfl⟩ :=
    step_inversion hstep
  · cases hp.symm.trans hp'
  · cases hp.symm.trans hp'
    exact ⟨rfl, fun b hb => by cases hb; rfl, fun hne => absurd rfl (hne a)⟩
  · cases hp.symm.trans hp'
    obtain ⟨hpend, hret, -⟩ := portWrite_hostSide hw
    exact ⟨hpend, fun _ hb => (nomatch hb), fun _ => hret⟩
  · cases hp.symm.trans hp'
    exact ⟨rfl, fun _ hb => (nomatch hb), fun _ => rfl⟩

/-- Settles O15: `portRead` writes the returned words only, and the word is the map's register. -/
theorem portReadReturnsRegister : Obligations.PortReadReturnsRegister := by
  refine ⟨fun s a rest hp => ?step, fun s => ⟨?elem, rfl, rfl, rfl, rfl, rfl, rfl, rfl, ?status⟩⟩
  case step =>
    rw [step_cons hp, performEvent_read]
    exact ⟨_, rfl, ⟨fun _ => rfl, ⟨rfl, rfl, rfl, rfl, rfl, rfl, rfl⟩, rfl⟩, rfl, rfl, rfl⟩
  case elem => exact fun r l => congrArg (regValue s) (portReg_elemAddr r l)
  case status => exact statusWord_toNat s.status

/-- Settles O16: by the address map, such an address names no register the access could reach. -/
theorem accessesThatHitNothing : Obligations.AccessesThatHitNothing := by
  refine fun s a => ⟨?read, fun ha v => ⟨s.setIll, ?write, onlyIllSet_setIll s⟩⟩
  case read =>
    rintro (hu | rfl)
    · exact congrArg (regValue s) ((unmappedAddr_iff a).mp hu)
    · rfl
  case write =>
    apply writeReg_of_not_writable
    obtain hu | rfl | rfl | rfl := ha
    · rw [(unmappedAddr_iff a).mp hu]; exact .inr rfl
    · exact .inl rfl
    · exact .inl rfl
    · exact .inl rfl

/-- Settles O17: `writeReg_of_readWrite` at the register the address names, which no other address
names. -/
theorem portWriteReadBack : Obligations.PortWriteReadBack := by
  intro s a v ha
  have hacc := (readWriteAddr_iff a).mp ha
  have hmapped : portReg a ≠ .unmapped := fun e => by rw [e] at hacc; cases hacc
  obtain ⟨t, hw, hback, hother, hstatus, hhost, hagain⟩ := writeReg_of_readWrite v s hacc
  refine ⟨t, hw, hback, fun b hb => hother _ fun e => ?_, hstatus, hhost, hagain⟩
  exact hb (portReg_injective e.symm hmapped).symm

/-- Settles O30: by `exec_inversion` the command writes `E[rd]`, and `BORROW` when it is `SUB`. -/
theorem elementCommandReadFrame : Obligations.ElementCommandReadFrame := by
  intro i rd s t hdest h a hstatus hout
  obtain ⟨rfl, -⟩ | ⟨rfl, -⟩ | ⟨rd', x, hdest', -, rfl⟩ | ⟨rd', rs1, rs2, x, b, rfl, rfl⟩
    | ⟨rs1, rs2, b, rfl, -⟩ := exec_inversion h
  · cases hdest
  · cases hdest
  · cases hdest.symm.trans hdest'
    exact readValue_setElem_of_outside s rd x hout
  · cases hdest
    have ha : a ≠ 0x47 := fun e => hstatus e rfl
    rw [readValue_setBorrow_ne _ b ha, readValue_setElem_of_outside s rd x hout]
  · cases hdest

/-- Settles O7: the event is a write to `CMD`, which is `portWrite_cmdAddr`. -/
theorem stepRunsDecodedCommand : Obligations.StepRunsDecodedCommand := by
  intro s v rest i hp hd
  rw [step_cons hp, performEvent_write, portWrite_cmdAddr hd]

/-- Settles O8: O7 at the state with the word issued, whose remaining events are those of `s`. -/
theorem fetchWordRunsNext : Obligations.FetchWordRunsNext := fun s nbits w i h =>
  stepRunsDecodedCommand (s.withFetchWord nbits w) _ s.pending i rfl (decode_tableDatum h)

/-- Settles O10: every event but a second host's answers a next state. -/
theorem stepStopsOnlyOnSecondHost : Obligations.StepStopsOnlyOnSecondHost := by
  refine fun s => ⟨fun hown => ?_, fun tr rest hp => by rw [step_cons hp, performEvent_foreign]⟩
  cases hp : s.pending with
  | nil => exact ⟨s, step_nil hp⟩
  | cons e rest =>
    rw [step_cons hp]
    match e with
    | .transact (.read a) => exact ⟨_, rfl⟩
    | .transact (.write a v) => exact portWrite_answers a v _
    | .reset => exact ⟨_, rfl⟩
    | .foreign tr => exact absurd hp (hown tr rest)

/-- Settles O13: the element half of the address map. -/
theorem elementAddressMap : Obligations.ElementAddressMap :=
  ⟨portReg_elemAddr, portReg_holes, fun _ _ => rfl⟩

/-- Settles O14: the nine registers by evaluation, the tail by `unmappedAddr_iff`. -/
theorem scalarAddressMap : Obligations.ScalarAddressMap := by
  refine ⟨rfl, rfl, rfl, rfl, rfl, rfl, rfl, rfl, rfl, fun a ha => ?tail, ?readWrite, ?readOnly, rfl, rfl⟩
  case tail => exact (unmappedAddr_iff a).mp (.inr ha)
  case readWrite => decide
  case readOnly => decide

end Sys2Proof.Machine

/-! Proofs of the encoding family: the decoder against the encoder, against the opcode table's masks and
against the list of malformed data, and the element transfers `LDE` and `RDE` as runs of the machine. -/

namespace Sys2Proof

/-! The decoder and the encoder are inverse to each other (R45, R46, R51). -/

/-- A word whose bits 31:16 are zero is the packing of its own fields. -/
theorem packWord_fields {c : CmdWord} (h : c.extractLsb' 16 16 = 0) :
    packWord (opcodeField c) (rdField c) (rs1Field c) (rs2Field c) (rmField c) = c := by
  have hlt := (zeroField_iff c).mp h
  have hop : opcodeField c < 16 := (c.extractLsb' 0 4).isLt
  apply BitVec.eq_of_toNat_eq
  rw [packWord_toNat _ hop, opcodeField_eq, rdField, rs1Field, rs2Field, rmField]
  simp only [regField_val]
  omega

theorem decodeWord_encode (i : Instr) : decodeWord (encode i) = .command i := by
  cases i <;> exact decodeWord_packWord _ (by decide) _ _ _ _

/-- The one word of a command is its encoding. -/
theorem decodeWord_eq_command_iff {c : CmdWord} {i : Instr} :
    decodeWord c = .command i ↔ c = encode i := by
  refine ⟨fun h => ?_, fun h => h ▸ decodeWord_encode i⟩
  unfold decodeWord at h
  split at h
  · cases h
  · next hz => rw [decodeFields_command h, packWord_fields (not_not.mp hz)]

/-- A datum whose bits 63:32 are zero carries its low word. -/
theorem wordDatum_lowWord {v : Limb} (h : v.extractLsb' 32 32 = 0) :
    wordDatum (v.extractLsb' 0 32) = v := by
  have hlt := (upperDatum_iff v).mp h
  apply BitVec.eq_of_toNat_eq
  rw [wordDatum_toNat, lowWord_toNat, Nat.mod_eq_of_lt hlt]

/-- A datum is a command when nothing stands above its low word and the word is one. -/
theorem decode_eq_command_iff {v : Limb} {i : Instr} :
    decode v = .command i ↔ v.extractLsb' 32 32 = 0 ∧ decodeWord (v.extractLsb' 0 32) = .command i := by
  unfold decode
  split
  · next hupper => exact iff_of_false (nomatch ·) fun h => hupper h.1
  · next hupper => exact (and_iff_right (not_not.mp hupper)).symm

/-! The opcode table's masks (R48). -/

/-- A word hit by a mask and match has the match's bits wherever the mask covers a whole field. -/
theorem extractLsb'_of_hit {c mask bits : CmdWord} (h : c &&& mask = bits) {lo len : Nat}
    (hmask : mask.extractLsb' lo len = BitVec.allOnes len) :
    c.extractLsb' lo len = bits.extractLsb' lo len := by
  rw [← h, BitVec.extractLsb'_and, hmask, BitVec.and_allOnes]

/-- `extractLsb'_of_hit` at a register field. -/
theorem regField_of_hit {c mask bits : CmdWord} (h : c &&& mask = bits) {lo : Nat}
    (hmask : mask.extractLsb' lo 3 = BitVec.allOnes 3) : regField c lo = regField bits lo :=
  Fin.ext (congrArg BitVec.toNat (extractLsb'_of_hit h hmask))

/-- Every mask covers the opcode. -/
theorem opcodeField_of_hit {row : OpcodeRow} (hrow : row ∈ opcodeTable) {c : CmdWord}
    (h : c &&& row.mask = row.matchBits) : opcodeField c = opcodeField row.matchBits := by
  have hcover : ∀ row ∈ opcodeTable, row.mask.extractLsb' 0 4 = BitVec.allOnes 4 := by decide
  exact congrArg BitVec.toNat (extractLsb'_of_hit h (hcover row hrow))

/-- A word of a row has the row's opcode and zeros in bits 31:16, so its fields decide (R51). -/
theorem decodeWord_of_hit {row : OpcodeRow} (hrow : row ∈ opcodeTable) {c : CmdWord}
    (h : c &&& row.mask = row.matchBits) :
    decodeWord c
      = decodeFields (opcodeField row.matchBits) (rdField c) (rs1Field c) (rs2Field c) (rmField c) := by
  have hcover : ∀ row ∈ opcodeTable, row.mask.extractLsb' 16 16 = BitVec.allOnes 16
      ∧ row.matchBits.extractLsb' 16 16 = 0 := by decide
  obtain ⟨hmask, hbits⟩ := hcover row hrow
  have hz : c.extractLsb' 16 16 = 0 := (extractLsb'_of_hit h hmask).trans hbits
  rw [decodeWord, if_neg (not_not.mpr hz), opcodeField_of_hit hrow h]

/-- A word of a row is a command with the row's mnemonic: the fields the decoder wants to be zero are
covered by the row's mask. -/
theorem command_of_hit {row : OpcodeRow} (hrow : row ∈ opcodeTable) {c : CmdWord}
    (h : c &&& row.mask = row.matchBits) :
    ∃ i, decodeWord c = .command i ∧ i.mnemonic = row.mnemonic := by
  rw [decodeWord_of_hit hrow h]
  simp only [opcodeTable, List.mem_cons, List.not_mem_nil, or_false] at hrow
  obtain rfl | rfl | rfl | rfl | rfl | rfl | rfl | rfl := hrow
  · exact ⟨.cmp128, if_pos ⟨regField_of_hit h (by decide), regField_of_hit h (by decide),
      regField_of_hit h (by decide), regField_of_hit h (by decide)⟩, rfl⟩
  · exact ⟨.add64, if_pos ⟨regField_of_hit h (by decide), regField_of_hit h (by decide),
      regField_of_hit h (by decide), regField_of_hit h (by decide)⟩, rfl⟩
  · exact ⟨.add .., if_pos (regField_of_hit h (by decide)), rfl⟩
  · exact ⟨.sub .., if_pos (regField_of_hit h (by decide)), rfl⟩
  · exact ⟨.lte .., if_pos ⟨regField_of_hit h (by decide), regField_of_hit h (by decide)⟩, rfl⟩
  · exact ⟨.addmod .., rfl, rfl⟩
  · exact ⟨.submod .., rfl, rfl⟩
  · exact ⟨.mulmod .., rfl, rfl⟩

/-- Two rows differ in their opcode, so no word is hit by both. -/
theorem row_unique {r₁ r₂ : OpcodeRow} (h₁ : r₁ ∈ opcodeTable) (h₂ : r₂ ∈ opcodeTable) {c : CmdWord}
    (hc₁ : c &&& r₁.mask = r₁.matchBits) (hc₂ : c &&& r₂.mask = r₂.matchBits) : r₁ = r₂ := by
  have hdistinct : ∀ r₁ ∈ opcodeTable, ∀ r₂ ∈ opcodeTable,
      opcodeField r₁.matchBits = opcodeField r₂.matchBits → r₁ = r₂ := by decide
  exact hdistinct r₁ h₁ r₂ h₂ ((opcodeField_of_hit h₁ hc₁).symm.trans (opcodeField_of_hit h₂ hc₂))

/-- The encoding of a command is a word of the row with its mnemonic. -/
theorem exists_row_hits_encode (i : Instr) :
    ∃ row ∈ opcodeTable, row.mnemonic = i.mnemonic ∧ encode i &&& row.mask = row.matchBits := by
  have hrow : Laws.EncodeMatchesRow.Statement i := by
    cases i with
    | cmp128 => exact Laws.EncodeMatchesRow.cmp128
    | add64 => exact Laws.EncodeMatchesRow.add64
    | add rd rs1 rs2 => exact Laws.EncodeMatchesRow.add rd rs1 rs2
    | sub rd rs1 rs2 => exact Laws.EncodeMatchesRow.sub rd rs1 rs2
    | lte rs1 rs2 => exact Laws.EncodeMatchesRow.lte rs1 rs2
    | addmod rd rs1 rs2 rm => exact Laws.EncodeMatchesRow.addmod rd rs1 rs2 rm
    | submod rd rs1 rs2 rm => exact Laws.EncodeMatchesRow.submod rd rs1 rs2 rm
    | mulmod rd rs1 rs2 rm => exact Laws.EncodeMatchesRow.mulmod rd rs1 rs2 rm
  obtain ⟨row, hmem, hmnemonic, hhits⟩ := hrow
  exact ⟨row, hmem, hmnemonic, of_decide_eq_true hhits⟩

/-- The decoder and a row of the table agree: a command is hit by the row of its mnemonic, whose
mnemonic no other row has. -/
theorem hit_iff_command {row : OpcodeRow} (hrow : row ∈ opcodeTable) (c : CmdWord) :
    c &&& row.mask = row.matchBits ↔ ∃ i, decodeWord c = .command i ∧ i.mnemonic = row.mnemonic := by
  have hdistinct : ∀ r₁ ∈ opcodeTable, ∀ r₂ ∈ opcodeTable, r₁.mnemonic = r₂.mnemonic → r₁ = r₂ := by
    decide
  refine ⟨command_of_hit hrow, fun ⟨i, hd, hm⟩ => ?_⟩
  obtain ⟨row', hrow', hm', hhit⟩ := exists_row_hits_encode i
  obtain rfl := hdistinct row' hrow' row hrow (hm'.trans hm)
  rwa [decodeWord_eq_command_iff.mp hd]

/-- The command words are the words that some row hits. -/
theorem exists_command_iff_hit (c : CmdWord) :
    (∃ i, decodeWord c = .command i) ↔ ∃ row ∈ opcodeTable, c &&& row.mask = row.matchBits := by
  refine ⟨fun ⟨i, hd⟩ => ?_, fun ⟨row, hrow, hhit⟩ => ?_⟩
  · obtain ⟨row, hrow, -, hhit⟩ := exists_row_hits_encode i
    exact ⟨row, hrow, by rwa [decodeWord_eq_command_iff.mp hd]⟩
  · obtain ⟨i, hd, -⟩ := command_of_hit hrow hhit
    exact ⟨i, hd⟩

/-- The mask of `datumWellFormed` keeps bits 63:32 (R45). -/
theorem upperDatum_iff_and_mask (v : Limb) :
    v &&& 0xFFFFFFFF00000000 = 0 ↔ v.extractLsb' 32 32 = 0 := by
  have hmask : (0xFFFFFFFF00000000 : Limb) = BitVec.allOnes 64 <<< 32 := by decide
  have := v.isLt
  rw [hmask, ← BitVec.shiftLeft_ushiftRight, upperDatum_iff, ← BitVec.toNat_inj]
  simp only [BitVec.toNat_shiftLeft, BitVec.toNat_ushiftRight, Nat.shiftLeft_eq,
    Nat.shiftRight_eq_div_pow, BitVec.ofNat_eq_ofNat, BitVec.toNat_ofNat]
  omega

theorem datumWellFormed_iff (v : Limb) :
    datumWellFormed v = true ↔ v.extractLsb' 32 32 = 0
      ∧ ∃ row ∈ opcodeTable, v.extractLsb' 0 32 &&& row.mask = row.matchBits := by
  rw [← upperDatum_iff_and_mask, ← BitVec.setWidth_eq_extractLsb' (by decide)]
  simp only [datumWellFormed, OpcodeRow.hits, Bool.and_eq_true, List.any_eq_true, decide_eq_true_eq]

/-! The malformed data (R52). -/

theorem Decoded.malformed_iff (d : Decoded) : (∃ why, d = .malformed why) ↔ ¬ ∃ i, d = .command i := by
  cases d <;> simp

theorem Decoded.malformed_ite_iff (P : Prop) [Decidable P] (i : Instr) (why : Malformed) :
    (∃ w, (if P then Decoded.command i else .malformed why) = .malformed w) ↔ ¬ P := by
  split <;> simp [*]

/-- The fields that name no command: a reserved opcode, or one whose unused fields are not all zero. -/
theorem decodeFields_malformed_iff (op : Nat) (rd rs1 rs2 rm : EReg) :
    (∃ why, decodeFields op rd rs1 rs2 rm = .malformed why) ↔
      op = 0 ∨ 9 ≤ op
      ∨ ((op = 1 ∨ op = 2) ∧ ¬ (rd = 0 ∧ rs1 = 0 ∧ rs2 = 0 ∧ rm = 0))
      ∨ ((op = 3 ∨ op = 4) ∧ ¬ rm = 0)
      ∨ (op = 5 ∧ ¬ (rd = 0 ∧ rm = 0)) := by
  match op with
  | 0 | 6 | 7 | 8 | _ + 9 => simp [decodeFields]
  | 1 | 2 | 3 | 4 | 5 => exact (Decoded.malformed_ite_iff ..).trans (by simp)

/-- R52's list is the decoder's: the first two tests of R51 reject the data from `2^16` on, and below it
the list speaks of the fields. -/
theorem malformedDatum_iff (v : Limb) : MalformedDatum v ↔ ∃ why, decode v = .malformed why := by
  unfold decode decodeWord
  split
  · next hv =>
    rw [Ne, upperDatum_iff] at hv
    exact iff_of_true (.inl (by omega)) ⟨_, rfl⟩
  · next hv =>
    rw [not_not, upperDatum_iff] at hv
    have hlow : (v.extractLsb' 0 32).toNat = v.toNat := by rw [lowWord_toNat, Nat.mod_eq_of_lt hv]
    split
    · next hz =>
      rw [Ne, zeroField_iff, hlow] at hz
      exact iff_of_true (.inl (by omega)) ⟨_, rfl⟩
    · next hz =>
      rw [not_not, zeroField_iff, hlow] at hz
      rw [decodeFields_malformed_iff, MalformedDatum]
      simp only [Fin.ext_iff, opcodeField_eq, rdField, rs1Field, rs2Field, rmField, regField_val, hlow,
        Fin.val_zero]
      omega

end Sys2Proof

namespace Sys2Proof.Machine

/-- A malformed datum, written to `CMD`, is an illegal request (R52). -/
theorem portWrite_cmdAddr_malformed {v : Limb} {why : Malformed} (h : decode v = .malformed why)
    (s : State) : portWrite 0x48 v s = .next s.setIll := by
  change issueCommand v s = .next s.setIll
  rw [issueCommand, h, illegalRequest]

/-! The element transfers (R56): a run of writes to, or of reads from, limbs of one element register. -/

theorem runSteps_succ {s t : State} (h : step s = .next t) (k : Nat) :
    runSteps (k + 1) s = runSteps k t := by
  rw [runSteps, h]

/-- `y` with the limbs listed in `ls` taken from `x`. -/
def copyLimbs (x : Elem) (ls : List (Fin 6)) (y : Elem) : Elem :=
  ls.foldl (fun y (l : Fin 6) => y.set l x[l]) y

/-- All six limbs taken over leave nothing of the old element. -/
theorem copyLimbs_limbIndices (x y : Elem) : copyLimbs x limbIndices y = x := by
  apply Vector.ext
  intro k hk
  match k with
  | 0 | 1 | 2 | 3 | 4 | 5 => simp [copyLimbs, limbIndices]

/-- `limbIndices` lists the limbs in order, limb 0 first. -/
theorem map_getElem_limbIndices (x : Elem) : limbIndices.map (fun l => x[l]) = x.toList := by
  apply List.ext_getElem
  · simp [limbIndices]
  · intro k hk _
    match k with
    | 0 | 1 | 2 | 3 | 4 | 5 => simp [limbIndices]

theorem step_writeLimb {s : State} {r : EReg} {l : Fin 6} {v : Limb} {rest : List HostEvent}
    (h : s.pending = wrEvent (elemAddr r l) v :: rest) :
    step s = .next ({ s with pending := rest }.setLimb r l v) := by
  rw [step_cons h, wrEvent, performEvent_write, portWrite, portReg_elemAddr, writeReg]

theorem step_readLimb {s : State} {r : EReg} {l : Fin 6} {rest : List HostEvent}
    (h : s.pending = rdEvent (elemAddr r l) :: rest) :
    step s = .next { s with pending := rest, returned := s.returned ++ [(s.elem r)[l]] } := by
  rw [step_cons h, rdEvent, performEvent_read, portRead, readValue, portReg_elemAddr]
  rfl

/-- A run of limb writes to `E[r]` is one write of the element with those limbs replaced. -/
theorem runSteps_writeLimbs (r : EReg) (x : Elem) (rest : List HostEvent) (ls : List (Fin 6)) (s : State)
    (h : s.pending = ls.map (fun l => wrEvent (elemAddr r l) x[l]) ++ rest) :
    runSteps ls.length s
      = .next ({ s with pending := rest }.setElem r (copyLimbs x ls (s.elem r))) := by
  induction ls generalizing s with
  | nil =>
    obtain rfl : s.pending = rest := h
    exact congrArg Host.Outcome.next (s.setElem_self r).symm
  | cons l ls ih =>
    rw [List.length_cons, runSteps_succ (step_writeLimb h), ih _ rfl, State.setLimb,
      State.elem_setElem_self]
    exact congrArg Host.Outcome.next (State.setElem_setElem { s with pending := rest } r _ _)

/-- A run of limb reads of `E[r]` appends those limbs to the returned words and does nothing else. -/
theorem runSteps_readLimbs (r : EReg) (rest : List HostEvent) (ls : List (Fin 6)) (s : State)
    (h : s.pending = ls.map (fun l => rdEvent (elemAddr r l)) ++ rest) :
    runSteps ls.length s
      = .next { s with pending := rest, returned := s.returned ++ ls.map (fun l => (s.elem r)[l]) } := by
  induction ls generalizing s with
  | nil =>
    obtain rfl : s.pending = rest := h
    simp [runSteps]
  | cons l ls ih =>
    rw [List.length_cons, runSteps_succ (step_readLimb h), ih _ rfl, List.append_assoc]
    rfl

/-! The obligations of the family. -/

/-- Settles O2: decoding a datum is decoding its word, and a packed word's fields are the operands. -/
theorem decodeEncodeRoundTrip : Obligations.DecodeEncodeRoundTrip := fun i =>
  (decode_wordDatum (encode i)).trans (decodeWord_encode i)

/-- Settles O3: the low word is the command's encoding, and nothing stands above it. -/
theorem commandHasOneDatum : Obligations.CommandHasOneDatum := by
  intro v i h
  obtain ⟨hupper, hword⟩ := decode_eq_command_iff.mp h
  rw [encodeDatum, ← decodeWord_eq_command_iff.mp hword, wordDatum_lowWord hupper]

/-- Settles O4: each row agrees with the decoder (`hit_iff_command`), two rows differ in their opcode, and
a word that is no command is malformed. -/
theorem decodeAgreesWithOpcodeTable : Obligations.DecodeAgreesWithOpcodeTable := by
  simp only [Obligations.DecodeAgreesWithOpcodeTable, decode_wordDatum]
  refine ⟨fun row hrow c => hit_iff_command hrow c, fun r₁ h₁ r₂ h₂ c => row_unique h₁ h₂,
    fun c hnone => ?_⟩
  rw [Decoded.malformed_iff, exists_command_iff_hit]
  exact fun ⟨row, hrow, hhit⟩ => hnone row hrow hhit

/-- Settles O5: both sides say that bits 63:32 are zero and that the low word is a command word. -/
theorem commandsAreWellFormedData : Obligations.CommandsAreWellFormedData := by
  intro v
  simp only [datumWellFormed_iff, decode_eq_command_iff, exists_and_left, exists_command_iff_hit]

/-- Settles O6: such a datum decodes to a malformed answer, so its write is an illegal request. -/
theorem malformedDatumOnlySetsIll : Obligations.MalformedDatumOnlySetsIll := by
  refine fun v => ⟨malformedDatum_iff v, fun hv s => ?_⟩
  obtain ⟨why, hd⟩ := (malformedDatum_iff v).mp hv
  exact ⟨s.setIll, portWrite_cmdAddr_malformed hd s, onlyIllSet_setIll s⟩

/-- Settles O18: `lde r x` is the writes along `limbIndices`, which together write the element `x`. -/
theorem ldeLoadsElement : Obligations.LdeLoadsElement := by
  intro s r x rest hp
  have hrun := runSteps_writeLimbs r x rest limbIndices s hp
  rw [copyLimbs_limbIndices] at hrun
  exact ⟨_, hrun, State.elem_setElem_self .., fun r' hr => State.elem_setElem_ne _ x hr,
    ⟨rfl, rfl, rfl, rfl, rfl, rfl, rfl⟩, rfl, rfl, rfl⟩

/-- Settles O19: `rde r` is the reads along `limbIndices`. -/
theorem rdeReturnsElement : Obligations.RdeReturnsElement := by
  intro s r rest hp
  have hrun := runSteps_readLimbs r rest limbIndices s hp
  rw [map_getElem_limbIndices] at hrun
  exact ⟨_, hrun, ⟨fun _ => rfl, ⟨rfl, rfl, rfl, rfl, rfl, rfl, rfl⟩, rfl⟩, rfl, rfl⟩

end Sys2Proof.Machine

/-! Proofs of the double-width family: each limb primitive as the remainder and the quotient, or the sign, of
its exact result, and the two helpers as the order and the sum of the operand pairs. -/

namespace Sys2Proof.Machine

/-! The carry chain's adder and subtractor (R60, R61). -/

theorem adc64_sum (a b : Limb) (cin : Bool) :
    (adc64 a b cin).1.toNat = (a.toNat + b.toNat + cin.toNat) % 2 ^ 64 := by
  rw [← adc64_exact, Nat.add_mul_mod_self_right, Nat.mod_eq_of_lt (adc64 a b cin).1.isLt]

theorem adc64_carry (a b : Limb) (cin : Bool) :
    (adc64 a b cin).2.toNat = (a.toNat + b.toNat + cin.toNat) / 2 ^ 64 := by
  rw [← adc64_exact, Nat.add_mul_div_right _ _ (by decide), Nat.div_eq_of_lt (adc64 a b cin).1.isLt,
    Nat.zero_add]

theorem sbb64_difference (a b : Limb) (bin : Bool) :
    ((sbb64 a b bin).1.toNat : Int) = ((a.toNat : Int) - b.toNat - bin.toNat) % 2 ^ 64 := by
  have hlt := (sbb64 a b bin).1.isLt
  rw [← sbb64_exact]
  omega

theorem sbb64_borrow_iff (a b : Limb) (bin : Bool) :
    (sbb64 a b bin).2 = true ↔ (a.toNat : Int) - b.toNat - bin.toNat < 0 :=
  decide_eq_true_iff

/-! The multiplier and the two truncating primitives (R62, R63). -/

/-- The high half of a product of two limbs is never all ones (R62). -/
theorem mul64_hi_le (a b : Limb) : (mul64 a b).hi.toNat ≤ 2 ^ 64 - 2 := by
  have hle : a.toNat * b.toNat ≤ (2 ^ 64 - 1) * (2 ^ 64 - 1) :=
    Nat.mul_le_mul (Nat.le_sub_one_of_lt a.isLt) (Nat.le_sub_one_of_lt b.isLt)
  rw [← mul64_exact, Wide.val] at hle
  omega

theorem mullo64_toNat (a b : Limb) : (mullo64 a b).toNat = a.toNat * b.toNat % 2 ^ 64 :=
  BitVec.toNat_mul a b

theorem Wide.lo_toNat (w : Wide) : w.lo.toNat = w.val % 2 ^ 64 := by
  rw [Wide.val, Nat.mul_add_mod_self_right, Nat.mod_eq_of_lt w.lo.isLt]

theorem mullo64_eq_mul64_lo (a b : Limb) : mullo64 a b = (mul64 a b).lo :=
  BitVec.eq_of_toNat_eq (by rw [mullo64_toNat, Wide.lo_toNat, mul64_exact])

theorem addlo64_toNat (a b : Limb) : (addlo64 a b).toNat = (a.toNat + b.toNat) % 2 ^ 64 :=
  BitVec.toNat_add a b

theorem addlo64_eq_adc64_sum (a b : Limb) : addlo64 a b = (adc64 a b false).1 :=
  BitVec.eq_of_toNat_eq (by rw [addlo64_toNat, adc64_sum, Bool.toNat_false, Nat.add_zero])

/-! The operand pairs and the result pair as 128-bit values (R15, R16). -/

theorem State.firstPair_val (s : State) : s.firstPair.val = s.ah.toNat * 2 ^ 64 + s.al.toNat := rfl

theorem State.secondPair_val (s : State) : s.secondPair.val = s.bh.toNat * 2 ^ 64 + s.bl.toNat := rfl

theorem State.setResultPair_val (s : State) (w : Wide) :
    (s.setResultPair w).rh.toNat * 2 ^ 64 + (s.setResultPair w).rl.toNat = w.val := rfl

/-- The code `CMP128` writes is that of the numeric order of the two pairs (R65). -/
theorem cmp_after_cmp128 (s : State) :
    (s.setCmp (cmp128 s.firstPair s.secondPair)).status.cmp
      = cmpCode (compare s.firstPair.val s.secondPair.val) := by
  rw [State.setCmp_status, cmp128_eq_compare]

/-! The obligations of the family. -/

/-- Settles O31: the code written is that of `compare` on the values of the pairs (`cmp_after_cmp128`), and
the write of `CMP` leaves the rest alone. -/
theorem cmp128Result : Obligations.Cmp128Result := by
  refine ⟨by decide, fun s => ⟨_, exec_cmp128 s, ?below, ?equal, ?above, rfl, fun _ => rfl,
    ⟨rfl, rfl, rfl, rfl, rfl, rfl, rfl⟩, exec_hostSide (exec_cmp128 s)⟩⟩
  all_goals
    rw [← State.firstPair_val, ← State.secondPair_val, cmp_after_cmp128]
    intro h
  case below => rw [Nat.compare_eq_lt.mpr h, cmpCode]
  case equal => rw [Nat.compare_eq_eq.mpr h, cmpCode]
  case above => rw [Nat.compare_eq_gt.mpr h, cmpCode]

/-- Settles O32: the pair written is `add128` of the two pairs, whose value is the sum modulo `2^128`
(`add128_val`), and the write of the result pair leaves the rest alone. -/
theorem add64Result : Obligations.Add64Result := by
  refine ⟨by decide, fun s => ⟨_, exec_add64 s, ?sum, rfl, rfl, rfl, rfl, rfl, rfl, fun _ => rfl,
    exec_hostSide (exec_add64 s)⟩⟩
  case sum =>
    rw [State.setResultPair_val, add128_val, State.firstPair_val, State.secondPair_val,
      ← Nat.add_assoc]

/-- Settles O40: the lemmas above, one for each of the five primitives. -/
theorem limbPrimitivesExact : Obligations.LimbPrimitivesExact :=
  ⟨fun a b cin => ⟨adc64_sum a b cin, adc64_carry a b cin⟩,
    fun a b bin => ⟨sbb64_difference a b bin, sbb64_borrow_iff a b bin⟩,
    fun a b => ⟨mul64_exact a b, mul64_hi_le a b⟩,
    fun a b => ⟨mullo64_toNat a b, mullo64_eq_mul64_lo a b⟩,
    fun a b => ⟨addlo64_toNat a b, addlo64_eq_adc64_sum a b⟩⟩

end Sys2Proof.Machine

/-! Proofs of the fixed-width family: the words of commands that leave fields unused, the difference as an
integer remainder, and the write of one element register as a frame. -/

namespace Sys2Proof

/-! Command words whose `rm` field, or whose `rd` and `rm` fields, are 0 (R46, R47). -/

theorem packWord_zero_rm (op : Nat) (rd rs1 rs2 : EReg) :
    packWord op rd rs1 rs2 0
      = BitVec.ofNat 32 (op + rd.val * 16 + rs1.val * 128 + rs2.val * 1024) := by
  simp only [packWord, Fin.val_zero, Nat.zero_mul, Nat.add_zero, Nat.reducePow]

theorem packWord_zero_rd_rm (op : Nat) (rs1 rs2 : EReg) :
    packWord op 0 rs1 rs2 0 = BitVec.ofNat 32 (op + rs1.val * 128 + rs2.val * 1024) := by
  rw [packWord_zero_rm, Fin.val_zero, Nat.zero_mul, Nat.add_zero]

end Sys2Proof

namespace Sys2Proof.Machine

/-! The subtractor's two results against the integer difference (R77, R112). -/

theorem sub384_difference (x y : Elem) :
    (elemVal (sub384 x y).1 : Int) = ((elemVal x : Int) - elemVal y) % 2 ^ 384 := by
  have hlt : (elemVal (sub384 x y).1 : Int) < 2 ^ 384 := mod_cast elemVal_lt (sub384 x y).1
  rw [← sub384_exact, Int.sub_mul_emod_self_right, Int.emod_eq_of_lt (Int.natCast_nonneg _) hlt]

theorem sub384_borrow_iff (x y : Elem) : (sub384 x y).2 = true ↔ elemVal x < elemVal y := by
  rw [sub384_borrow, decide_eq_true_iff]

/-! The write of one element register, and what it leaves alone (R10). -/

theorem sameElemsExcept_setElem (s : State) (rd : EReg) (v : Elem) :
    SameElemsExcept rd s (s.setElem rd v) := fun _ hr => s.elem_setElem_ne v hr

theorem onlyElemChanged_setElem (s : State) (rd : EReg) (v : Elem) :
    OnlyElemChanged rd s (s.setElem rd v) :=
  ⟨sameElemsExcept_setElem s rd v, ⟨rfl, rfl, rfl, rfl, rfl, rfl, rfl⟩, rfl, ⟨rfl, rfl, rfl⟩⟩

/-! The obligations of the family. -/

/-- Settles O33: the element written is `add384` of the sources, whose value is the sum modulo `2^384`
(`add384_val`), and the write of `E[rd]` leaves the rest alone. -/
theorem addResult : Obligations.AddResult := by
  refine fun rd rs1 rs2 s => ⟨packWord_zero_rm 0x3 rd rs1 rs2, _, exec_add rd rs1 rs2 s, ?sum,
    onlyElemChanged_setElem s rd _⟩
  case sum => rw [State.elem_setElem_self, add384_val]

/-- Settles O34: `E[rd]` and `BORROW` take the two results of `sub384` on the sources
(`sub384_difference`, `sub384_borrow_iff`), and the two writes leave the rest alone. -/
theorem subResult : Obligations.SubResult := by
  refine fun rd rs1 rs2 s => ⟨packWord_zero_rm 0x4 rd rs1 rs2, _, exec_sub rd rs1 rs2 s, ?difference,
    sub384_borrow_iff _ _, rfl, sameElemsExcept_setElem s rd _, ⟨rfl, rfl, rfl, rfl, rfl, rfl, rfl⟩,
    exec_hostSide (exec_sub rd rs1 rs2 s)⟩
  case difference => rw [State.setBorrow_elem, State.elem_setElem_self, sub384_difference]

/-- Settles O35: `LTE` takes `lteElem` of the sources, which is the limbwise order (`lteElem_iff`), and the
write of the flag leaves the rest alone. -/
theorem lteResult : Obligations.LteResult := fun rs1 rs2 s =>
  ⟨packWord_zero_rd_rm 0x5 rs1 rs2, _, exec_lte rs1 rs2 s, lteElem_iff _ _, rfl, fun _ => rfl,
    ⟨rfl, rfl, rfl, rfl, rfl, rfl, rfl⟩, exec_hostSide (exec_lte rs1 rs2 s)⟩

end Sys2Proof.Machine

/-! Proofs of the modular add and subtract family: the word of a command with four registers, the correction
as an addition undone, and `ADDMOD`'s condition on the wrapped sum. -/

namespace Sys2Proof

/-- The word of a command that uses all four register fields (R46, R47). -/
theorem packWord_all_fields (op : Nat) (rd rs1 rs2 rm : EReg) :
    packWord op rd rs1 rs2 rm
      = BitVec.ofNat 32 (op + rd.val * 16 + rs1.val * 128 + rs2.val * 1024 + rm.val * 8192) := by
  simp only [packWord, Nat.reducePow]

end Sys2Proof

namespace Sys2Proof.Machine

/-! The correction against the predicate it is decided by (R85, R99). -/

/-- The predicate with the modulus first says that `x` dominates the modulus (R79, R85). -/
theorem dominates_iff_lteElem (x m : Elem) : Dominates x m ↔ lteElem m x = true :=
  (lteElem_iff m x).symm

theorem sub384_no_borrow_of_lteElem {m o : Elem} (h : lteElem m o = true) : (sub384 o m).2 = false := by
  rw [sub384_borrow, decide_eq_false_iff_not, Nat.not_lt]
  exact elemVal_le_of_lteElem h

theorem correct_val_add_modulus {m o : Elem} (h : lteElem m o = true) :
    elemVal (correct m o) + elemVal m = elemVal o := by
  rw [correct_val, if_pos h, Nat.sub_add_cancel (elemVal_le_of_lteElem h)]

theorem add384_correct_modulus {m o : Elem} (h : lteElem m o = true) : add384 (correct m o) m = o :=
  elemVal_injective (by
    rw [add384_val, correct_val_add_modulus h, Nat.mod_eq_of_lt (elemVal_lt o)])

/-! The sum `ADDMOD` compares with the modulus (R75, R85). -/

/-- The limbs of the wrapped sum are those `add384` gives (R11, R75). -/
theorem elemOfNat_wrapped_sum (x y : Elem) :
    elemOfNat ((elemVal x + elemVal y) % 2 ^ 384) = add384 x y := by
  rw [← add384_val, elemOfNat_elemVal]

theorem addmod_val (x y m : Elem) :
    elemVal (addmod x y m)
      = if lteElem m (add384 x y) then elemVal (add384 x y) - elemVal m else elemVal (add384 x y) :=
  correct_val m (add384 x y)

/-! The obligations of the family. -/

/-- Settles O36: `E[rd]` takes `addmod` of the sources, whose correction is decided by the limbs of the
wrapped sum (`elemOfNat_wrapped_sum`, `addmod_val`); the limbwise order that decides it is below the numeric
one, so the subtraction does not wrap. -/
theorem addmodResult : Obligations.AddmodResult := by
  refine fun rd rs1 rs2 rm s => ⟨packWord_all_fields 0x6 rd rs1 rs2 rm, _, exec_addmod rd rs1 rs2 rm s,
    ?corrected, ?uncorrected, onlyElemChanged_setElem s rd _⟩
  all_goals
    rw [elemOfNat_wrapped_sum, dominates_iff_lteElem, State.elem_setElem_self, addmod_val, ← add384_val]
    intro h
  case corrected => exact ⟨elemVal_le_of_lteElem h, if_pos h⟩
  case uncorrected => exact if_neg h

/-- Settles O37: `E[rd]` takes `submod` of the sources, whose value in the two cases of the borrow is
`submod_val`, and the write of `E[rd]` leaves `BORROW` and the rest alone. -/
theorem submodResult : Obligations.SubmodResult := by
  refine fun rd rs1 rs2 rm s => ⟨packWord_all_fields 0x7 rd rs1 rs2 rm, _, exec_submod rd rs1 rs2 rm s,
    ?noBorrow, ?borrow, onlyElemChanged_setElem s rd _⟩
  all_goals
    rw [State.elem_setElem_self, submod_val]
    intro h
  case noBorrow => exact if_neg (Nat.not_lt.mpr h)
  case borrow => exact if_pos h

/-- Settles O43: the predicate implies the numeric order (`elemVal_le_of_lteElem`), so the subtraction is
that of the naturals and its addition does not wrap. -/
theorem correctionNeverBorrows : Obligations.CorrectionNeverBorrows := fun _ _ h =>
  ⟨sub384_no_borrow_of_lteElem h, add384_correct_modulus h, correct_val_add_modulus h⟩

end Sys2Proof.Machine

/-! Proofs of the Montgomery family: the accumulator from a limb on as one number, the measures a loop can
raise, the integer listing step by step, and the invariant of the rows under PRE. -/

namespace Sys2Proof.Machine

/-! The carry that escapes a 128-bit sum (R95), and the saturated limb (R96). -/

theorem carryEscaped_iff_lt (S P : Wide) : carryEscaped S P = true ↔ S.val < P.val := by
  rw [carryEscaped, decide_eq_true_iff, cmp128_lt_iff]

theorem carryEscaped_add128_iff (P T : Wide) :
    carryEscaped (add128 P T) P = true ↔ 2 ^ 128 ≤ P.val + T.val := by
  have hP := P.val_lt
  have hT := T.val_lt
  rw [carryEscaped_iff_lt, add128_val]
  omega

theorem eq_saturated_iff (a : Limb) : a = saturated ↔ a.toNat = 2 ^ 64 - 1 := by
  rw [← BitVec.toNat_inj, saturated_toNat]

/-! The accumulator from limb `s` on as one number, limb by limb (R96). -/

theorem upperVal_end (A : Accumulator) : upperVal A 13 = 0 :=
  Finset.sum_eq_zero fun k _ => if_neg (Nat.not_le.mpr k.isLt)

theorem upperVal_step (A : Accumulator) {s : Nat} (hs : s < 13) :
    upperVal A s = A[s].toNat + 2 ^ 64 * upperVal A (s + 1) := by
  have hlimb : A[s].toNat = ∑ k : Fin 13, if k = ⟨s, hs⟩ then A[k].toNat else 0 := by
    rw [Finset.sum_ite_eq' Finset.univ, if_pos (Finset.mem_univ _)]; rfl
  rw [hlimb, upperVal, upperVal, Finset.mul_sum, ← Finset.sum_add_distrib]
  refine Finset.sum_congr rfl fun k _ => ?_
  have hk : k = ⟨s, hs⟩ ↔ k.val = s := Fin.ext_iff
  rcases Nat.lt_trichotomy s k.val with hlt | rfl | hgt
  · have hweight : 64 * (k.val - s) = 64 * (k.val - (s + 1)) + 64 := by omega
    rw [if_pos hlt.le, if_pos (show s + 1 ≤ k.val from hlt), if_neg (by rw [hk]; omega), hweight,
      Nat.pow_add]
    ring
  · simp
  · rw [if_neg (by omega), if_neg (by rw [hk]; omega), if_neg (by omega), Nat.mul_zero]

/-- A write below limb `s` does not show from limb `s` on. -/
theorem upperVal_set_below (A : Accumulator) {k s : Nat} (hk : k < 13) (hks : k < s) (v : Limb) :
    upperVal (A.set k v) s = upperVal A s := by
  refine Finset.sum_congr rfl fun l _ => ?_
  split
  · next hl => simp only [Fin.getElem_fin, Vector.getElem_set_ne _ _ (show k ≠ l.val by omega)]
  · rfl

theorem upperVal_lt (A : Accumulator) (n : Nat) : ∀ s, s + n = 13 → upperVal A s < 2 ^ (64 * n) := by
  induction n with
  | zero => rintro s rfl; rw [upperVal_end]; decide
  | succ n ih =>
    intro s hs
    have hrest := ih (s + 1) (by omega)
    have hlimb := A[s].isLt
    rw [upperVal_step A (by omega), Nat.mul_succ, Nat.pow_add]
    omega

/-- The ripple loop adds one to the limbs from `k` on, modulo their width, whether or not one of them
absorbs it (R96). -/
theorem rippleLoop_upperVal (fuel : Nat) : ∀ (k : Nat) (A : Accumulator), k + fuel = 13 →
    upperVal (rippleLoop fuel k A) k = (upperVal A k + 1) % 2 ^ (64 * fuel) := by
  induction fuel with
  | zero =>
    rintro k A rfl
    rw [upperVal_end, upperVal_end, Nat.mul_zero, Nat.pow_zero, Nat.mod_one]
  | succ fuel ih =>
    intro k A hk
    have hk13 : k < 13 := by omega
    have hwidth : 2 ^ (64 * (fuel + 1)) = 2 ^ 64 * 2 ^ (64 * fuel) := by
      rw [Nat.mul_succ, Nat.pow_add, Nat.mul_comm]
    rw [upperVal_step A hk13, upperVal_step _ hk13, rippleLoop, dif_pos hk13, hwidth]
    split
    · next hsat =>
      have hcarry : A[k].toNat + 2 ^ 64 * upperVal A (k + 1) + 1
          = 2 ^ 64 * (upperVal A (k + 1) + 1) := by
        rw [hsat, saturated_toNat]; omega
      rw [rippleLoop_low _ _ _ _ hk13 k.lt_add_one, Vector.getElem_set_self, ih _ _ (by omega),
        upperVal_set_below A hk13 k.lt_add_one, hcarry, Nat.mul_mod_mul_left]
      simp
    · next hns =>
      have hrest := upperVal_lt A fuel (k + 1) (by omega)
      have hlimb := (A[k] + 1).isLt
      rw [toNat_add_one_of_ne_saturated hns] at hlimb
      rw [Vector.getElem_set_self, upperVal_set_below A hk13 k.lt_add_one,
        toNat_add_one_of_ne_saturated hns, Nat.mod_eq_of_lt (by omega)]
      omega

/-! How far the loops can raise the top limb (R103). -/

/-- A measure that no step raises by more than `c` while it is below a limit is raised by no more than `c`
for each step of a loop. -/
theorem foldl_le_add_of_step {σ α : Type} (f : σ → α → σ) (measure : σ → Nat) (c limit : Nat)
    (hstep : ∀ s a, measure s + c < limit → measure (f s a) ≤ measure s + c) (l : List α) :
    ∀ s, measure s + c * l.length < limit → measure (l.foldl f s) ≤ measure s + c * l.length := by
  induction l with
  | nil => intro s _; exact Nat.le_refl _
  | cons a l ih =>
    intro s hs
    rw [List.length_cons, Nat.mul_succ] at *
    have ha := hstep s a (by omega)
    have hl := ih (f s a) (by omega)
    rw [List.foldl_cons]
    omega

theorem innerSteps_top (x y m : Elem) (u : Limb) (i : Fin 6) (js : List (Fin 6)) (t : RowState)
    (h : t.acc[12].toNat + js.length < 2 ^ 64) :
    (js.foldl (innerStep x y m u i) t).acc[12].toNat ≤ t.acc[12].toNat + js.length := by
  have hstep : ∀ (t : RowState) (j : Fin 6), t.acc[12].toNat + 1 < 2 ^ 64 →
      (innerStep x y m u i t j).acc[12].toNat ≤ t.acc[12].toNat + 1 := fun t j ht =>
    innerStep_top x y m u i t j (mt (eq_saturated_iff _).mp (by omega))
  have hloop := foldl_le_add_of_step (innerStep x y m u i) (fun t => t.acc[12].toNat) 1 (2 ^ 64) hstep js t
  rw [Nat.one_mul] at hloop
  exact hloop h

theorem rows_top (x y m : Elem) (inv : Limb) (rows : List (Fin 6)) (A : Accumulator)
    (h : A[12].toNat + 6 * rows.length < 2 ^ 64) :
    (rows.foldl (row x y m inv) A)[12].toNat ≤ A[12].toNat + 6 * rows.length :=
  foldl_le_add_of_step (row x y m inv) (fun A => A[12].toNat) 6 (2 ^ 64)
    (fun A i hA => row_top x y m inv A i hA) rows A h

theorem zeroAccumulator_top : (Vector.replicate 13 0 : Accumulator)[12].toNat = 0 := rfl

theorem accBeforeRow_top (x y m : Elem) (inv : Limb) (n : Fin 6) :
    (accBeforeRow x y m inv n)[12].toNat ≤ 6 * n.val := by
  have hlen : (limbIndices.take n.val).length ≤ n.val := List.length_take_le _ _
  have hrows := rows_top x y m inv (limbIndices.take n.val) (Vector.replicate 13 0)
    (by rw [zeroAccumulator_top]; omega)
  rw [zeroAccumulator_top] at hrows
  rw [accBeforeRow]
  omega

/-! The listing of section 3, step by step: each of its steps, on the limbs as natural numbers, is the
model's. -/

/-- The limbs of an accumulator as the natural numbers the listing computes on. -/
def limbNats (A : Accumulator) : Vector Nat 13 := A.map BitVec.toNat

/-- The accumulator and the carry of an inner iteration as the listing holds them. -/
def RowState.nats (t : RowState) : Vector Nat 13 × Nat := (limbNats t.acc, t.carry.toNat)

theorem limbNats_getElem (A : Accumulator) (k : Nat) (hk : k < 13) : (limbNats A)[k] = A[k].toNat :=
  Vector.getElem_map ..

theorem limbNats_set (A : Accumulator) (k : Nat) (hk : k < 13) (v : Limb) :
    limbNats (A.set k v) = (limbNats A).set k v.toNat :=
  Vector.map_set ..

theorem limbNats_zero : limbNats (Vector.replicate 13 0) = Vector.replicate 13 0 :=
  Vector.map_replicate

theorem listingRipple_limbNats (fuel : Nat) : ∀ (k : Nat) (A : Accumulator),
    listingRipple fuel k (limbNats A) = limbNats (rippleLoop fuel k A) := by
  induction fuel with
  | zero => intro k A; rfl
  | succ fuel ih =>
    intro k A
    rw [listingRipple, rippleLoop]
    split
    · next hk =>
      rw [limbNats_getElem A k hk]
      by_cases hsat : A[k] = saturated
      · rw [if_pos ((eq_saturated_iff _).mp hsat), if_pos hsat, ← ih, limbNats_set]
        rfl
      · rw [if_neg (mt (eq_saturated_iff _).mpr hsat), if_neg hsat, limbNats_set,
          toNat_add_one_of_ne_saturated hsat]
    · rfl

theorem Wide.hi_toNat (w : Wide) : w.hi.toNat = w.val / 2 ^ 64 := by
  have := w.lo.isLt
  rw [Wide.val]
  omega

theorem listingInner_nats (x y m : Elem) (u : Limb) (i : Fin 6) (t : RowState) (j : Fin 6) :
    listingInner x y m u.toNat i t.nats j = (innerStep x y m u i t j).nats := by
  obtain ⟨A, carry⟩ := t
  have hfuel : 13 - (i.val + j.val + 2) = 11 - (i.val + j.val) := by omega
  simp only [listingInner, innerStep, RowState.nats, ripple, hfuel, limbNats_getElem,
    ← partialSum_val x y i j carry, ← reductionTerm_val m u j A[i.val + j.val]]
  generalize partialSum x y i j carry = P
  generalize reductionTerm m u j A[i.val + j.val] = T
  have hS := add128_val P T
  have hlo : (P.val + T.val) % 2 ^ 64 = (add128 P T).lo.toNat := by rw [Wide.lo_toNat, hS]; omega
  have hhi : (P.val + T.val) / 2 ^ 64 % 2 ^ 64 = (add128 P T).hi.toNat := by
    rw [Wide.hi_toNat, hS]; omega
  have hescape : (P.val + T.val) % 2 ^ 128 < P.val ↔ carryEscaped (add128 P T) P = true := by
    rw [carryEscaped_iff_lt, hS]
  simp only [hlo, hhi, hescape, ← limbNats_set, listingRipple_limbNats, apply_ite limbNats]

theorem rowMultiplier_toNat (x y : Elem) (inv : Limb) (A : Accumulator) (i : Fin 6) :
    (rowMultiplier x y inv A i).toNat
      = (A[i.val].toNat + x[i].toNat * y[0].toNat) % 2 ^ 64 * inv.toNat % 2 ^ 64 := by
  rw [rowMultiplier, mullo64_toNat, addlo64_toNat, mullo64_toNat, Nat.add_mod_mod]

theorem listingRow_limbNats (x y m : Elem) (inv : Limb) (A : Accumulator) (i : Fin 6) :
    listingRow x y m inv (limbNats A) i = limbNats (row x y m inv A i) := by
  have hloop : limbIndices.foldl (listingInner x y m (rowMultiplier x y inv A i).toNat i) (limbNats A, 0)
      = (innerLoop x y m (rowMultiplier x y inv A i) i A).nats :=
    List.foldl_hom RowState.nats (init := ⟨A, 0⟩) (listingInner_nats x y m _ i)
  rw [listingRow, limbNats_getElem A i.val (by omega), ← rowMultiplier_toNat, hloop]
  simp only [row, endRow, RowState.nats]
  rw [limbNats_getElem _ (i.val + 6) (by omega), ← addlo64_toNat, ← limbNats_set]

theorem foldl_listingRow (x y m : Elem) (inv : Limb) :
    limbIndices.foldl (listingRow x y m inv) (Vector.replicate 13 0) = limbNats (accumulate x y m inv) := by
  rw [← limbNats_zero]
  exact List.foldl_hom limbNats (listingRow_limbNats x y m inv)

theorem copyOut_get (A : Accumulator) (l : Fin 6) : (copyOut A)[l] = A[6 + l.val] := by
  match l with
  | 0 | 1 | 2 | 3 | 4 | 5 => rfl

theorem ofFn_limbNats_eq_copyOut (A : Accumulator) :
    (Vector.ofFn fun l : Fin 6 => BitVec.ofNat 64 (limbNats A)[6 + l.val]) = copyOut A := by
  refine Vector.ext fun l hl => ?_
  rw [Vector.getElem_ofFn, limbNats_getElem, BitVec.ofNat_toNat, BitVec.setWidth_eq]
  exact (copyOut_get A ⟨l, hl⟩).symm

/-- The correction as the listing writes it (R99). -/
theorem correct_eq_elemOfNat (m o : Elem) : correct m o =
    if ∀ l : Fin 6, m[l].toNat ≤ o[l].toNat then elemOfNat (elemVal o - elemVal m) else o := by
  split
  · next h =>
    rw [← lteElem_iff] at h
    rw [← elemOfNat_elemVal (correct m o), correct_val, if_pos h]
  · next h =>
    rw [← lteElem_iff] at h
    rw [correct, if_neg h]

/-! A zero operand: the accumulator, the carry and `u` stay zero (R100 (a)). -/

/-- Limb `i` of an element is digit `i` of its value (R11). -/
theorem elemVal_digit (x : Elem) (i : Fin 6) : elemVal x / 2 ^ (64 * i.val) % 2 ^ 64 = x[i].toNat := by
  rw [← elemOfNat_get (elemVal x) i.val i.isLt, elemOfNat_elemVal, Fin.getElem_fin]

theorem limb_product_eq_zero {x y : Elem} (h : elemVal x = 0 ∨ elemVal y = 0) (i j : Fin 6) :
    x[i].toNat * y[j].toNat = 0 := by
  rw [← elemVal_digit x i, ← elemVal_digit y j]
  rcases h with h | h <;> simp only [h, Nat.zero_div, Nat.zero_mod, Nat.zero_mul, Nat.mul_zero]

theorem mul64_of_product_eq_zero {a b : Limb} (h : a.toNat * b.toNat = 0) : mul64 a b = ⟨0, 0⟩ := by
  simp only [mul64, h]
  rfl

theorem innerStep_zero {x y : Elem} {i j : Fin 6} (h : x[i].toNat * y[j].toNat = 0) (m : Elem) :
    innerStep x y m 0 i ⟨Vector.replicate 13 0, 0⟩ j = ⟨Vector.replicate 13 0, 0⟩ := by
  have hP : partialSum x y i j 0 = ⟨0, 0⟩ := by rw [partialSum, mul64_of_product_eq_zero h]; rfl
  have hT : reductionTerm m 0 j 0 = ⟨0, 0⟩ := by
    rw [reductionTerm, mul64_of_product_eq_zero (by simp)]; rfl
  have hS : add128 ⟨0, 0⟩ ⟨0, 0⟩ = ⟨0, 0⟩ := rfl
  have hw : carryEscaped ⟨0, 0⟩ ⟨0, 0⟩ = false := rfl
  simp only [innerStep, Vector.getElem_replicate, hP, hT, hS, hw, Vector.set_replicate_self]
  rfl

theorem row_zero {x y : Elem} (h : ∀ i j : Fin 6, x[i].toNat * y[j].toNat = 0) (m : Elem) (inv : Limb)
    (i : Fin 6) : row x y m inv (Vector.replicate 13 0) i = Vector.replicate 13 0 := by
  have hu : rowMultiplier x y inv (Vector.replicate 13 0) i = 0 := by
    have hprod : x[i].toNat * y[0].toNat = 0 := h i 0
    apply BitVec.eq_of_toNat_eq
    rw [rowMultiplier_toNat, hprod]
    simp
  have hloop : innerLoop x y m 0 i (Vector.replicate 13 0) = ⟨Vector.replicate 13 0, 0⟩ :=
    List.foldl_fixed' (fun j => innerStep_zero (h i j) m) limbIndices
  rw [row, hu, hloop, endRow]
  simp only [Vector.getElem_replicate]
  exact Vector.set_replicate_self ..

theorem accumulate_zero {x y : Elem} (h : elemVal x = 0 ∨ elemVal y = 0) (m : Elem) (inv : Limb) :
    accumulate x y m inv = Vector.replicate 13 0 :=
  List.foldl_fixed' (row_zero (limb_product_eq_zero h) m inv) limbIndices

theorem accVal_zero : accVal (Vector.replicate 13 0) = 0 := by
  simp [accVal]

/-! The rows under PRE (R104). -/

theorem limb_eq_zero_of_accVal_lt {A : Accumulator} {k : Nat} (h : accVal A < 2 ^ (64 * k)) (hk : k < 13) :
    A[k] = 0 := by
  apply BitVec.eq_of_toNat_eq
  rw [← accVal_digit A k hk, Nat.div_eq_of_lt h]
  rfl

theorem limb_eq_zero_of_multiple {A : Accumulator} {W n k : Nat} (h : accVal A = W * 2 ^ (64 * n))
    (hkn : k < n) (hk : k < 13) : A[k] = 0 := by
  have hweight : 64 * n = 64 * (n - k - 1) + 64 + 64 * k := by omega
  apply BitVec.eq_of_toNat_eq
  rw [← accVal_digit A k hk, h, hweight, Nat.pow_add, Nat.pow_add, ← Nat.mul_assoc, ← Nat.mul_assoc,
    Nat.mul_div_cancel _ (Nat.two_pow_pos _), Nat.mul_mod_left]
  rfl

/-- The addition at a row's end has no carry out when the row's sum is below limb `i + 7` (R97, R104 (5)). -/
theorem endRow_no_carry {i : Fin 6} {t : RowState} :
    accVal t.acc + t.carry.toNat * 2 ^ (64 * (i.val + 6)) < 2 ^ (64 * (i.val + 7)) →
    t.acc[i.val + 6].toNat + t.carry.toNat < 2 ^ 64 := by
  intro h
  have hterm := accVal_term_le t.acc (i.val + 6) (by omega)
  have hweight : 2 ^ (64 * (i.val + 7)) = 2 ^ 64 * 2 ^ (64 * (i.val + 6)) := weight_add (i.val + 6) 1
  refine Nat.lt_of_mul_lt_mul_right (a := 2 ^ (64 * (i.val + 6))) ?_
  rw [← hweight, Nat.add_mul]
  exact (Nat.add_le_add_right hterm _).trans_lt h

theorem elemVal_mod_succ (x : Elem) (i : Fin 6) :
    elemVal x % 2 ^ (64 * (i.val + 1))
      = elemVal x % 2 ^ (64 * i.val) + x[i].toNat * 2 ^ (64 * i.val) := by
  rw [Nat.mul_succ, Nat.pow_add, Nat.mod_mul, elemVal_digit, Nat.mul_comm x[i].toNat]

/-- What holds under PRE of the accumulator before row `n`: it is `W·2^(64·n)` for a `W` of at most
`2·val(m) − 2`, and congruent to the number the low `n` limbs of `x` make times `val(y)` (R104 (2) to (4)). -/
structure MontgomeryRow (x y m : Elem) (n : Nat) (A : Accumulator) (W : Nat) : Prop where
  val : accVal A = W * 2 ^ (64 * n)
  bound : W + 2 ≤ 2 * elemVal m
  congr : W * 2 ^ (64 * n) ≡ elemVal x % 2 ^ (64 * n) * elemVal y [MOD elemVal m]

theorem montgomeryRow_zero {x y m : Elem} (hx : Reduced x m) :
    MontgomeryRow x y m 0 (Vector.replicate 13 0) 0 where
  val := by rw [accVal_zero, Nat.zero_mul]
  bound := by unfold Reduced at hx; omega
  congr := by simp [Nat.mod_one, Nat.ModEq]

theorem MontgomeryRow.lt {x y m : Elem} {n : Nat} {A : Accumulator} {W : Nat}
    (h : MontgomeryRow x y m n A W) (hm : elemVal m ≤ 2 ^ 383) : W < 2 ^ 384 := by
  have := h.bound
  omega

theorem MontgomeryRow.top_eq_zero {x y m : Elem} {n : Nat} {A : Accumulator} {W : Nat}
    (h : MontgomeryRow x y m n A W) (hm : elemVal m ≤ 2 ^ 383) (hn : n ≤ 6) : A[12] = 0 := by
  refine limb_eq_zero_of_accVal_lt ?_ (by decide)
  calc accVal A = W * 2 ^ (64 * n) := h.val
    _ < 2 ^ (64 * 6) * 2 ^ (64 * n) := Nat.mul_lt_mul_of_pos_right (h.lt hm) (Nat.two_pow_pos _)
    _ = 2 ^ (64 * (n + 6)) := (weight_add n 6).symm
    _ ≤ 2 ^ (64 * 12) := Nat.pow_le_pow_right (by decide) (by omega)

/-- `u` makes what row `i` adds up to a multiple of `2^64`, and the quotient is in bounds again (R104 (3),
(4)). -/
theorem row_quotient {x y m : Elem} {inv : Limb} (pre : MontgomeryPre x y m inv) {A : Accumulator} {W : Nat}
    {i : Fin 6} (h : MontgomeryRow x y m i.val A W) :
    ∃ W', W + x[i].toNat * elemVal y + (rowMultiplier x y inv A i).toNat * elemVal m = W' * 2 ^ 64
      ∧ W' + 2 ≤ 2 * elemVal m := by
  have hdigit : W % 2 ^ 64 = A[i.val].toNat := by
    rw [← accVal_digit A i.val (by omega), h.val, Nat.mul_div_cancel _ (Nat.two_pow_pos _)]
  obtain ⟨W', hW'⟩ := Nat.dvd_of_mod_eq_zero (rowMultiplier_cancels x y m inv pre.inverse A i W hdigit)
  refine ⟨W', by rw [hW', Nat.mul_comm], ?_⟩
  have hW := h.bound
  have hy : elemVal y < elemVal m := pre.y_reduced
  have hxy : x[i].toNat * elemVal y ≤ (2 ^ 64 - 1) * (elemVal m - 1) :=
    Nat.mul_le_mul (Nat.le_sub_one_of_lt x[i].isLt) (Nat.le_sub_one_of_lt hy)
  have hum : (rowMultiplier x y inv A i).toNat * elemVal m ≤ (2 ^ 64 - 1) * elemVal m :=
    Nat.mul_le_mul_right _ (Nat.le_sub_one_of_lt (rowMultiplier x y inv A i).isLt)
  omega

/-- A row's sum keeps the congruence: the multiple of the modulus drops out (R104 (2)). -/
theorem modEq_add_row {W B r xi u vy vm : Nat} (h : W * B ≡ r * vy [MOD vm]) :
    W * B + (xi * vy + u * vm) * B ≡ (r + xi * B) * vy [MOD vm] :=
  calc W * B + (xi * vy + u * vm) * B
      = W * B + xi * B * vy + u * B * vm := by ring
    _ ≡ W * B + xi * B * vy [MOD vm] := Nat.add_mul_mod_self_right ..
    _ ≡ r * vy + xi * B * vy [MOD vm] := h.add_right _
    _ = (r + xi * B) * vy := (Nat.add_mul ..).symm

theorem MontgomeryRow.next {x y m : Elem} {inv : Limb} (pre : MontgomeryPre x y m inv) {A : Accumulator}
    {W : Nat} (i : Fin 6) (h : MontgomeryRow x y m i.val A W) :
    ∃ W', MontgomeryRow x y m (i.val + 1) (row x y m inv A i) W' := by
  obtain ⟨W', hW', hbound'⟩ := row_quotient pre h
  have hm := pre.modulus_le
  have htop : A[12].toNat + 6 < 2 ^ 64 := by rw [h.top_eq_zero hm i.isLt.le]; decide
  have hsum : accVal A + (x[i].toNat * elemVal y + (rowMultiplier x y inv A i).toNat * elemVal m)
      * 2 ^ (64 * i.val) = W' * 2 ^ (64 * (i.val + 1)) := by
    rw [h.val, ← Nat.add_mul, ← Nat.add_assoc, hW', weight_add i.val 1, Nat.mul_assoc]
  have hlt : W' * 2 ^ (64 * (i.val + 1)) < 2 ^ (64 * (i.val + 7)) := by
    rw [weight_add (i.val + 1) 6]
    exact Nat.mul_lt_mul_of_pos_right (by omega) (Nat.two_pow_pos _)
  have hloop := (innerLoop_spec x y m (rowMultiplier x y inv A i) i A htop).1.trans hsum
  have hrow := (row_val x y m inv A i htop (endRow_no_carry (hloop.trans_lt hlt))).trans hsum
  refine ⟨W', hrow, hbound', ?_⟩
  rw [← hsum, h.val, elemVal_mod_succ]
  exact modEq_add_row h.congr

theorem exists_montgomeryRow_accumulate {x y m : Elem} {inv : Limb} (pre : MontgomeryPre x y m inv) :
    ∃ W, MontgomeryRow x y m 6 (accumulate x y m inv) W := by
  obtain ⟨W1, h1⟩ := MontgomeryRow.next pre 0 (montgomeryRow_zero pre.x_reduced)
  obtain ⟨W2, h2⟩ := MontgomeryRow.next pre 1 h1
  obtain ⟨W3, h3⟩ := MontgomeryRow.next pre 2 h2
  obtain ⟨W4, h4⟩ := MontgomeryRow.next pre 3 h3
  obtain ⟨W5, h5⟩ := MontgomeryRow.next pre 4 h4
  exact MontgomeryRow.next pre 5 h5

/-! The obligations of the family. -/

/-- Settles O48: `P` and `T` are exact, their sum is taken modulo `2^128`, and since `T` is below `2^128` it
falls below `P` exactly when it wrapped (`carryEscaped_add128_iff`). -/
theorem carryEscapeDetection : Obligations.CarryEscapeDetection := fun x y m u carry a i j =>
  ⟨partialSum_val x y i j carry, reductionTerm_val m u j a, add128_val _ _, carryEscaped_add128_iff _ _⟩

/-- Settles O49, by induction on the limbs the ripple has left (`rippleLoop_low`, `rippleLoop_upperVal`). -/
theorem rippleAddsOne : Obligations.RippleAddsOne := fun s A hs =>
  ⟨fun k hk => rippleLoop_low _ _ _ _ k.isLt hk, rippleLoop_upperVal (13 - s) s A (by omega)⟩

/-- Settles O50: reading the limbs as natural numbers carries each row of the model to the listing's
(`foldl_listingRow`), and the copy and the correction agree on the accumulator they leave. -/
theorem mulmodIsListing : Obligations.MulmodIsListing := fun x y m inv => by
  rw [mulmod, correct_eq_elemOfNat, listing, foldl_listingRow, ofFn_limbNats_eq_copyOut]

/-- Settles O51: an inner iteration raises the top limb by at most one and a row by at most six, so a loop
by at most that for each of its steps (`foldl_le_add_of_step`). -/
theorem accumulatorTopLimbBound : Obligations.AccumulatorTopLimbBound := by
  refine fun x y m inv => ⟨fun n k _ => ?within, ?after⟩
  case within =>
    have hbefore := accBeforeRow_top x y m inv n
    have hlen : (limbIndices.take k).length ≤ k := List.length_take_le _ _
    have hwithin := innerSteps_top x y m (rowMultiplier x y inv (accBeforeRow x y m inv n) n) n
      (limbIndices.take k) ⟨accBeforeRow x y m inv n, 0⟩ (by dsimp only; omega)
    exact hwithin.trans (Nat.add_le_add hbefore hlen)
  case after => exact rows_top x y m inv limbIndices (Vector.replicate 13 0) (by decide)

/-- Settles O52: `MontgomeryRow` holds of the zero accumulator and every row keeps it, so after row 5 the
accumulator is `W·2^384` with `W` below `2^384`. -/
theorem montgomeryAccumulator : Obligations.MontgomeryAccumulator := by
  intro x y m inv pre
  obtain ⟨W, h⟩ := exists_montgomeryRow_accumulate pre
  have hm := pre.modulus_le
  have hcongr := h.congr
  rw [Nat.mod_eq_of_lt (elemVal_lt x)] at hcongr
  rw [elemVal_copyOut _ W h.val (h.lt hm)]
  refine ⟨?zero, hcongr, h.bound⟩
  case zero =>
    rintro ⟨k, hk⟩ (hlow | htop)
    · exact limb_eq_zero_of_multiple h.val hlow hk
    · obtain rfl : k = 12 := htop
      exact h.top_eq_zero hm le_rfl

/-- Settles O55: the accumulator stays zero (`accumulate_zero`), and the correction leaves the value of its
copy at zero, made or not. -/
theorem mulmodZeroOperand : Obligations.MulmodZeroOperand := by
  intro x y m inv h
  have hcopy := elemVal_copyOut (Vector.replicate 13 0) 0 (by rw [accVal_zero, Nat.zero_mul])
    (Nat.two_pow_pos _)
  rw [mulmod, accumulate_zero h, correct_val, hcopy, Nat.zero_sub, ite_self]

/-- Settles O38: `E[rd]` takes `mulmod` of the sources and `INV`, and the write of `E[rd]` leaves the rest
alone. -/
theorem mulmodCompletes : Obligations.MulmodCompletes := fun rd rs1 rs2 rm s =>
  ⟨packWord_all_fields 0x8 rd rs1 rs2 rm, _, exec_mulmod rd rs1 rs2 rm s, s.elem_setElem_self rd _,
    onlyElemChanged_setElem s rd _⟩

end Sys2Proof.Machine

/-! Proofs of the properties family: the order `LTE` decides, the correction's value modulo the modulus and
when it is reduced, and `ADDMOD`, `SUBMOD` and `MULMOD` on reduced operands in those terms. -/

namespace Sys2Proof.Machine

/-! The ordering predicate against the numeric order (R113). -/

theorem lteElem_refl (x : Elem) : lteElem x x = true :=
  (lteElem_iff x x).mpr fun _ => Nat.le_refl _

theorem lteElem_trans {x y z : Elem} (hxy : lteElem x y = true) (hyz : lteElem y z = true) :
    lteElem x z = true := by
  rw [lteElem_iff] at *
  exact fun l => (hxy l).trans (hyz l)

theorem lteElem_antisymm {x y : Elem} (hxy : lteElem x y = true) (hyx : lteElem y x = true) : x = y :=
  elemVal_injective ((elemVal_le_of_lteElem hxy).antisymm (elemVal_le_of_lteElem hyx))

theorem lteElem_eq_false_of_limb_lt {x y : Elem} {l : Fin 6} (h : y[l].toNat < x[l].toNat) :
    lteElem x y = false := by
  rw [← Bool.not_eq_true, lteElem_iff]
  exact fun hle => (hle l).not_gt h

/-- On elements that are comparable limb by limb the predicate is the numeric order. -/
theorem lteElem_iff_elemVal_le {x y : Elem} (h : lteElem x y = true ∨ lteElem y x = true) :
    lteElem x y = true ↔ elemVal x ≤ elemVal y := by
  refine ⟨elemVal_le_of_lteElem, fun hle => ?_⟩
  rcases h with hxy | hyx
  · exact hxy
  · rw [elemVal_injective (hle.antisymm (elemVal_le_of_lteElem hyx))]
    exact lteElem_refl y

/-! The correction modulo the modulus, and when it reaches a reduced value (R85, R99). -/

theorem correct_of_not_dominates {m o : Elem} (h : ¬ Dominates o m) : correct m o = o := by
  rw [dominates_iff_lteElem] at h
  rw [correct, if_neg h]

theorem correct_val_of_dominates {m o : Elem} (h : Dominates o m) :
    elemVal (correct m o) + elemVal m = elemVal o :=
  correct_val_add_modulus ((dominates_iff_lteElem o m).mp h)

theorem correct_val_le (m o : Elem) : elemVal (correct m o) ≤ elemVal o := by
  rw [correct_val]
  split
  · exact Nat.sub_le _ _
  · exact Nat.le_refl _

theorem correct_val_modEq (m o : Elem) : elemVal (correct m o) ≡ elemVal o [MOD elemVal m] := by
  by_cases h : Dominates o m
  · rw [← correct_val_of_dominates h]
    exact Nat.add_modEq_right.symm
  · rw [correct_of_not_dominates h]

theorem reduced_correct_iff {m o : Elem} (ho : elemVal o < 2 * elemVal m) :
    Reduced (correct m o) m ↔ Reduced o m ∨ Dominates o m := by
  unfold Reduced
  by_cases h : Dominates o m
  · have hsub := correct_val_of_dominates h
    exact iff_of_true (by omega) (.inr h)
  · rw [correct_of_not_dominates h]
    exact (or_iff_left h).symm

/-! Addition and `ADDMOD` by the size of the sum (R75, R110, R115). -/

theorem add384_val_of_lt {x y : Elem} (h : elemVal x + elemVal y < 2 ^ 384) :
    elemVal (add384 x y) = elemVal x + elemVal y := by
  rw [add384_val, Nat.mod_eq_of_lt h]

theorem add384_val_of_wrap {x y : Elem} (h : 2 ^ 384 ≤ elemVal x + elemVal y) :
    elemVal (add384 x y) + 2 ^ 384 = elemVal x + elemVal y := by
  have := elemVal_lt x
  have := elemVal_lt y
  rw [add384_val]
  omega

theorem sub384_add384 (x y : Elem) : (sub384 (add384 x y) y).1 = x := by
  have := elemVal_lt x
  have := elemVal_lt y
  apply elemVal_injective
  rw [sub384_val, add384_val]
  omega

theorem add384_lt_right_iff (x y : Elem) :
    elemVal (add384 x y) < elemVal y ↔ 2 ^ 384 ≤ elemVal x + elemVal y := by
  have := elemVal_lt x
  by_cases h : elemVal x + elemVal y < 2 ^ 384
  · rw [add384_val_of_lt h]
    omega
  · have := add384_val_of_wrap (Nat.not_lt.mp h)
    omega

theorem elemOfNat_sum {x y : Elem} (h : elemVal x + elemVal y < 2 ^ 384) :
    elemOfNat (elemVal x + elemVal y) = add384 x y := by
  rw [← add384_val_of_lt h, elemOfNat_elemVal]

theorem addmod_comm (x y m : Elem) : addmod x y m = addmod y x m :=
  congrArg (correct m) (add384_comm x y)

theorem addmod_modEq {x y : Elem} (m : Elem) (h : elemVal x + elemVal y < 2 ^ 384) :
    elemVal (addmod x y m) ≡ elemVal x + elemVal y [MOD elemVal m] := by
  rw [← add384_val_of_lt h]
  exact correct_val_modEq m (add384 x y)

/-- A wrapped sum of reduced operands stays as it is, below the modulus, and so away from the class of the
true sum, whose remainder is one modulus below it (R115). -/
theorem addmod_not_modEq_of_wrap {x y m : Elem} (hx : Reduced x m) (hy : Reduced y m)
    (h : 2 ^ 384 ≤ elemVal x + elemVal y) :
    ¬ elemVal (addmod x y m) ≡ elemVal x + elemVal y [MOD elemVal m] := by
  unfold Reduced at hx hy
  have hm := elemVal_lt m
  have hwrap := add384_val_of_wrap h
  have hlt : elemVal (add384 x y) < elemVal m := by omega
  have hdom : ¬ Dominates (add384 x y) m := fun hd => by
    have := correct_val_of_dominates hd
    omega
  have hrem : (elemVal x + elemVal y) % elemVal m = elemVal x + elemVal y - elemVal m := by
    rw [Nat.mod_eq_sub_mod (by omega), Nat.mod_eq_of_lt (by omega)]
  intro hmod
  rw [addmod, correct_of_not_dominates hdom, Nat.ModEq, Nat.mod_eq_of_lt hlt, hrem] at hmod
  omega

/-- A reduced result for a modulus of at most `2^383` is the residue of the sum (R115, R118). -/
theorem addmod_val_of_reduced {x y m : Elem} (hx : Reduced x m) (hy : Reduced y m)
    (hm : elemVal m ≤ 2 ^ 383) (h : Reduced (addmod x y m) m) :
    elemVal (addmod x y m) = (elemVal x + elemVal y) % elemVal m := by
  unfold Reduced at hx hy
  have hmod := addmod_modEq m (x := x) (y := y) (by omega)
  exact (Nat.mod_eq_of_lt h).symm.trans hmod

/-! `SUBMOD` by the order of the operands (R116). -/

theorem submod_val_add_of_le {x y : Elem} (m : Elem) (h : elemVal y ≤ elemVal x) :
    elemVal (submod x y m) + elemVal y = elemVal x := by
  rw [submod_val, if_neg (Nat.not_lt.mpr h), Nat.sub_add_cancel h]

theorem submod_val_add_of_lt {x y m : Elem} (hy : Reduced y m) (h : elemVal x < elemVal y) :
    elemVal (submod x y m) + elemVal y = elemVal x + elemVal m := by
  unfold Reduced at hy
  have := elemVal_lt m
  rw [submod_val, if_pos h]
  omega

/-! `MULMOD` under PRE (R119, R120). -/

theorem mulmod_modEq {x y m : Elem} {inv : Limb} (pre : MontgomeryPre x y m inv) :
    elemVal (mulmod x y m inv) * 2 ^ 384 ≡ elemVal x * elemVal y [MOD elemVal m] := by
  obtain ⟨-, hcongr, -⟩ := montgomeryAccumulator x y m inv pre
  exact ((correct_val_modEq m _).mul_right _).trans hcongr

/-- A modulus with an inverse constant is odd. -/
theorem coprime_of_inverseConstant {m : Elem} {inv : Limb} (h : InverseConstant inv m) :
    (elemVal m).Coprime (2 ^ 384) := by
  have heven : Even (inv.toNat * m[0].toNat + 1) :=
    even_iff_two_dvd.mpr ((by decide : 2 ∣ 2 ^ 64).trans (Nat.dvd_of_mod_eq_zero h))
  have hlimb : Odd m[0].toNat := by
    rw [Nat.even_add_one, Nat.not_even_iff_odd, Nat.odd_mul] at heven
    exact heven.2
  have hodd : Odd (elemVal m) := by
    rw [Nat.odd_iff] at hlimb ⊢
    unfold elemVal
    omega
  exact (Nat.coprime_two_right.mpr hodd).pow_right 384

/-- Multiplying by a Montgomery form of `c` multiplies by `c` (R120). -/
theorem mulmod_montgomeryForm {a r m : Elem} {inv : Limb} {c : Nat} (pre : MontgomeryPre a r m inv)
    (hr : elemVal r ≡ c * 2 ^ 384 [MOD elemVal m]) :
    elemVal (mulmod a r m inv) ≡ elemVal a * c [MOD elemVal m] := by
  refine Nat.ModEq.cancel_right_of_coprime (coprime_of_inverseConstant pre.inverse) ?_
  rw [Nat.mul_assoc]
  exact (mulmod_modEq pre).trans (hr.mul_left _)

/-- The residue of any number by a modulus above 0 fits an element. -/
theorem elemVal_residue_modEq {a m : Elem} (ha : Reduced a m) (n : Nat) :
    elemVal (elemOfNat (n % elemVal m)) ≡ n [MOD elemVal m] := by
  have hlt : n % elemVal m < elemVal m := Nat.mod_lt _ (Nat.zero_lt_of_lt ha)
  rw [elemVal_elemOfNat _ (hlt.trans (elemVal_lt m))]
  exact Nat.mod_modEq _ _

/-! The second of two writes of a flag wins, and the write of an element register does not stand between
them. -/

theorem State.setElem_setBorrow (s : State) (r : EReg) (v : Elem) (b : Bool) :
    (s.setBorrow b).setElem r v = (s.setElem r v).setBorrow b := rfl

theorem State.setBorrow_setBorrow (s : State) (b b' : Bool) :
    (s.setBorrow b).setBorrow b' = s.setBorrow b' := rfl

theorem State.setLte_setLte (s : State) (b b' : Bool) : (s.setLte b).setLte b' = s.setLte b' := rfl

/-! The obligations of the family. -/

/-- Settles O39: `W` is the copy of the accumulator (`montgomeryAccumulator`), and the value written is its
correction, which keeps its class and does not raise it. -/
theorem mulmodMontgomeryValue : Obligations.MulmodMontgomeryValue := by
  intro rd rs1 rs2 rm s pre
  obtain ⟨-, hcongr, hbound⟩ := montgomeryAccumulator _ _ _ _ pre
  refine ⟨_, _, exec_mulmod rd rs1 rs2 rm s, hcongr, hbound, ?corrected, ?uncorrected, ?congruent, ?below⟩
  all_goals rw [State.elem_setElem_self]
  case corrected =>
    rw [elemOfNat_elemVal]
    intro h
    have hsub := correct_val_of_dominates h
    rw [mulmod]
    omega
  case uncorrected =>
    rw [elemOfNat_elemVal]
    exact fun h => congrArg elemVal (correct_of_not_dominates h)
  case congruent => exact mulmod_modEq pre
  case below => exact (Nat.succ_le_succ (correct_val_le _ _)).trans_lt (by omega)

/-- Settles O41: a wrapped sum is below the operand added (`add384_lt_right_iff`), and the subtraction wraps
back exactly then. -/
theorem subUndoesAdd : Obligations.SubUndoesAdd := fun x y =>
  ⟨sub384_add384 x y, (sub384_borrow_iff _ _).trans (add384_lt_right_iff x y)⟩

/-- Settles O42: the predicate is the limbwise order (`lteElem_iff`); the numbers 1 and `2^64` are not
comparable, and of two that agree with the numeric order, one is below the other because that is total. -/
theorem lteIsProductOrder : Obligations.LteIsProductOrder := by
  refine ⟨fun _ _ => elemVal_le_of_lteElem, fun _ _ _ => lteElem_eq_false_of_limb_lt, lteElem_refl,
    fun _ _ _ => lteElem_trans, fun _ _ => lteElem_antisymm, ?incomparable, fun a c => ⟨?total, ?agree⟩⟩
  case incomparable => exact ⟨#v[1, 0, 0, 0, 0, 0], #v[0, 1, 0, 0, 0, 0], by decide +kernel⟩
  case total =>
    rintro ⟨hac, hca⟩
    exact (Nat.le_total (elemVal a) (elemVal c)).imp hac.mpr hca.mpr
  case agree => exact fun h => ⟨lteElem_iff_elemVal_le h, lteElem_iff_elemVal_le h.symm⟩

/-- Settles O44: below `2^384` the sum is exact, so the result is its correction; from there on it wraps
(`addmod_not_modEq_of_wrap`). The borrow is the numeric comparison with the modulus. -/
theorem addmodClosureCondition : Obligations.AddmodClosureCondition := by
  refine ⟨fun x y m hx hy => ⟨fun ht => ?exact, fun ht => ⟨?large, addmod_not_modEq_of_wrap hx hy ht⟩,
    ?borrow⟩, ?counterexample⟩
  case exact =>
    have hsum := add384_val_of_lt ht
    have ht2 : elemVal (add384 x y) < 2 * elemVal m := by unfold Reduced at hx hy; omega
    rw [elemOfNat_sum ht]
    refine ⟨addmod_modEq m ht, ?value, ?reduced, fun _ h => ?missed⟩
    case value =>
      by_cases h : Dominates (add384 x y) m
      · exact .inr ((correct_val_of_dominates h).trans hsum)
      · exact .inl ((congrArg elemVal (correct_of_not_dominates h)).trans hsum)
    case reduced =>
      rw [← hsum]
      exact reduced_correct_iff ht2
    case missed =>
      exact ⟨(congrArg elemVal (correct_of_not_dominates h)).trans hsum, hsum ▸ ht2⟩
  case large => unfold Reduced at hx hy; omega
  case borrow => rw [sub384_borrow, decide_eq_false_iff_not, Reduced]
  case counterexample => unfold Reduced; decide +kernel

/-- Settles O46: the two cases of the borrow (`submod_val_add_of_le`, `submod_val_add_of_lt`); both results
are below the modulus, and the second differs from the difference by one modulus. -/
theorem submodIsModularDifference : Obligations.SubmodIsModularDifference := by
  intro x y m hx hy
  rw [sub384_borrow, decide_eq_false_iff_not, decide_eq_true_iff]
  have hle := submod_val_add_of_le m (x := x) (y := y)
  have hlt := submod_val_add_of_lt (x := x) hy
  generalize submod x y m = r at *
  unfold Reduced at *
  have hred : elemVal r < elemVal m := by omega
  refine ⟨?residue, hred, by omega, by omega⟩
  case residue =>
    have hrem : (elemVal r : Int) % (elemVal m : Int) = elemVal r :=
      Int.emod_eq_of_lt (by omega) (by omega)
    rcases Nat.lt_or_ge (elemVal x) (elemVal y) with h | h
    · have hdiff : (elemVal x : Int) - elemVal y = elemVal r - elemVal m := by have := hlt h; omega
      rw [hdiff, Int.sub_emod_right, hrem]
    · have hdiff : (elemVal x : Int) - elemVal y = elemVal r := by have := hle h; omega
      rw [hdiff, hrem]

/-- Settles O45: `addmod` reads its summands through `add384` only, which commutes (`addmod_comm`). -/
theorem addmodCommutes : Obligations.AddmodCommutes := by
  intro rd rs1 rs2 rm s
  rw [exec_addmod, exec_addmod, addmod_comm]

/-- Settles O47: each reduced result is the residue of its sum (`addmod_val_of_reduced`), so both sides have
the value of the residue of the three. -/
theorem addmodAssociativityCondition : Obligations.AddmodAssociativityCondition := by
  refine ⟨fun x y z m hx hy hz hm hxy hyz hleft hright => ?_, ?counterexample⟩
  case counterexample => unfold Reduced; decide +kernel
  have hl : elemVal (addmod (addmod x y m) z m) = (elemVal x + elemVal y + elemVal z) % elemVal m := by
    rw [addmod_val_of_reduced hxy hz hm hleft, addmod_val_of_reduced hx hy hm hxy, Nat.mod_add_mod]
  have hr : elemVal (addmod x (addmod y z m) m) = (elemVal x + elemVal y + elemVal z) % elemVal m := by
    rw [addmod_val_of_reduced hx hyz hm hright, addmod_val_of_reduced hy hz hm hyz, Nat.add_mod_mod,
      Nat.add_assoc]
  exact ⟨elemVal_injective (hl.trans hr.symm), hl⟩

/-- Settles O53: `mulmod` is the correction of `W`, which is below twice the modulus
(`montgomeryAccumulator`, `reduced_correct_iff`). -/
theorem mulmodReductionCondition : Obligations.MulmodReductionCondition := by
  intro x y m inv pre
  obtain ⟨-, hcongr, hbound⟩ := montgomeryAccumulator x y m inv pre
  have hiff := reduced_correct_iff (m := m) (o := copyOut (accumulate x y m inv)) (by omega)
  refine ⟨hiff, fun h => ?_⟩
  obtain ⟨hW, hdom⟩ := not_or.mp (mt hiff.mpr h)
  exact ⟨correct_of_not_dominates hdom, Nat.not_lt.mp hW, hbound, hcongr⟩

/-- Settles O54: the constants are Montgomery forms of 1 and of `2^384` (`mulmod_montgomeryForm`), and two
reduced values of one class are one value. -/
theorem montgomeryRoundTrip : Obligations.MontgomeryRoundTrip := by
  intro a m inv
  refine ⟨fun pre => ?one, fun pre => ?into, fun pre => ?back⟩
  case one =>
    have hform := elemVal_residue_modEq pre.x_reduced (2 ^ 384)
    have hclass := mulmod_montgomeryForm (c := 1) pre (by rwa [Nat.one_mul])
    rw [Nat.mul_one] at hclass
    exact ⟨hclass, fun h => elemVal_injective (hclass.eq_of_lt_of_lt h pre.x_reduced)⟩
  case into =>
    have hform := elemVal_residue_modEq pre.x_reduced (2 ^ 768)
    exact mulmod_montgomeryForm pre (hform.trans (by rw [← Nat.pow_add]))
  case back =>
    have hone : elemVal #v[1, 0, 0, 0, 0, 0] = 1 := by decide +kernel
    have hclass := mulmod_modEq pre
    rwa [hone, Nat.mul_one] at hclass

/-- Settles O56, by the operands of V-MUL-10, whose accumulator reaches `2^768`. -/
theorem largeModulusLosesProduct : Obligations.LargeModulusLosesProduct := by
  refine ⟨
    #v[0x40b2d002cc92d33d, 0x32833106536e95df, 0x3170fab23d90fbac, 0xf08db22fd293056a,
      0x4ad5cfbc1d74bd1c, 0xf3faa8e879eaa723],
    #v[0xffec3fee8ed2305d, 0x3ce1268c9c8052e3, 0x8e4edc90253d9e30, 0xa93f32a9a1725102,
      0x009f001680289e32, 0x47aa2dbad9e2ec8d],
    #v[0xfffffffffffffec3, saturated, saturated, saturated, saturated, saturated],
    0xec9e48ae6f71de15, ?_⟩
  unfold InverseConstant Reduced
  decide +kernel

/-- Settles O57: of each command with a destination, the value written and the flag are computed from the
state before the write. -/
theorem aliasingSafe : Obligations.AliasingSafe := by
  intro i rd rd' s t t' hdest h h'
  cases i
  case cmp128 | add64 | lte => cases hdest
  case add | sub | addmod | submod | mulmod =>
    cases hdest; cases h; cases h'
    simp

/-- Settles O58: by `commandFrame` the sources stand as they were, so the second issue writes again what the
first one wrote. -/
theorem commandsIdempotent : Obligations.CommandsIdempotent := by
  intro i s t hfree h
  obtain ⟨hinv, -, -, -, -, -, helem, -⟩ := commandFrame i s t h
  have hsrc : ∀ r ∈ i.sources, t.elem r = s.elem r := fun r hr => helem r fun hd => hfree r hd hr
  cases i
  case cmp128 | add64 => cases h; rfl
  case add | sub | lte | addmod | submod | mulmod =>
    simp only [Instr.sources, List.forall_mem_cons] at hsrc
    simp only [exec_add, exec_sub, exec_lte, exec_addmod, exec_submod, exec_mulmod, hsrc, hinv]
    cases h
    simp only [State.setElem_setBorrow, State.setElem_setElem, State.setBorrow_setBorrow,
      State.setLte_setLte]

end Sys2Proof.Machine

/-! Proofs of the exceptions family: the illegal requests of R131 against the address map and the decoder,
and what a command, a port write and a step do to `ILL`. -/

namespace Sys2Proof.Machine

/-! The illegal requests, and the events that are none (R131). -/

/-- `NonWritableAddr` lists exactly the addresses of the read-only registers and of no register. -/
theorem nonWritableAddr_iff : ∀ a : Addr,
    NonWritableAddr a ↔ (portReg a).access = .readOnly ∨ (portReg a).access = .none := by
  unfold NonWritableAddr; decide +kernel

/-- Whether the host's next event is an illegal request is settled by that event alone. -/
theorem illegalWriteNext_iff {s : State} {a : Addr} {v : Limb} {rest : List HostEvent}
    (hp : s.pending = .transact (.write a v) :: rest) : IllegalWriteNext s ↔ IllegalWrite a v := by
  refine ⟨?_, fun h => ⟨a, v, rest, hp, h⟩⟩
  rintro ⟨a', v', rest', hp', h⟩
  cases hp.symm.trans hp'
  exact h

/-- No event but a write is an illegal request. -/
theorem not_illegalWriteNext {s : State} (h : ∀ a v rest, s.pending ≠ .transact (.write a v) :: rest) :
    ¬ IllegalWriteNext s := by
  rintro ⟨a, v, rest, hp, -⟩
  exact h a v rest hp

/-! What a command, a port write and a step do to `ILL` (R130 to R132). -/

/-- No command touches `ILL` (R130). -/
theorem exec_ill {i : Instr} {s t : State} (h : exec i s = .next t) : t.status.ill = s.status.ill := by
  obtain ⟨-, o, hst⟩ | ⟨-, -, -, b, -, hst⟩ | ⟨-, -, b, -, hst⟩ | hst := exec_status h
  · rw [hst]
  · rw [hst]
  · rw [hst]
  · rw [hst]

/-- An illegal request sets `ILL` and does nothing else (R132). -/
theorem portWrite_of_illegalWrite {a : Addr} {v : Limb} (h : IllegalWrite a v) (s : State) :
    portWrite a v s = .next s.setIll := by
  obtain ⟨rfl, hm⟩ | hn := h
  · obtain ⟨why, hd⟩ := (malformedDatum_iff v).mp hm
    exact portWrite_cmdAddr_malformed hd s
  · exact writeReg_of_not_writable v s ((nonWritableAddr_iff a).mp hn)

/-- A write that is no illegal request leaves `ILL` as it is: of the cases of `portWrite_inversion`, the two
that set it are the two kinds of illegal request. -/
theorem portWrite_ill_of_legal {a : Addr} {v : Limb} {s t : State} (hlegal : ¬ IllegalWrite a v)
    (h : portWrite a v s = .next t) : t.status.ill = s.status.ill := by
  obtain ⟨r, l, -, rfl⟩ | ⟨-, rfl⟩ | ⟨-, rfl⟩ | ⟨-, rfl⟩ | ⟨-, rfl⟩ | ⟨-, rfl⟩ | ⟨-, i, -, he⟩
    | ⟨hcmd, hd, -⟩ | ⟨hp, -⟩ := portWrite_inversion h
  · rfl
  · rfl
  · rfl
  · rfl
  · rfl
  · rfl
  · exact exec_ill he
  · exact absurd (.inl ⟨eq_cmdAddr_of_portReg hcmd, (malformedDatum_iff v).mpr hd⟩) hlegal
  · have hacc : (portReg a).access = .readOnly ∨ (portReg a).access = .none := by
      obtain hp | hp | hp | hp := hp <;> simp [hp, PortReg.access]
    exact absurd (.inr ((nonWritableAddr_iff a).mpr hacc)) hlegal

/-- After a port write `ILL` is 1 exactly when it was 1 before or the write is an illegal request. -/
theorem portWrite_ill_iff {a : Addr} {v : Limb} {s t : State} (h : portWrite a v s = .next t) :
    t.status.ill = true ↔ s.status.ill = true ∨ IllegalWrite a v := by
  by_cases hw : IllegalWrite a v
  · cases (portWrite_of_illegalWrite hw s).symm.trans h
    simp [hw]
  · simp [portWrite_ill_of_legal hw h, hw]

/-! The obligations of the family. -/

/-- Settles O9: every command answers a next state, and none touches `ILL`. -/
theorem commandsCompleteWithoutEvent : Obligations.CommandsCompleteWithoutEvent := by
  intro i s
  obtain ⟨t, h⟩ := exec_answers i s
  exact ⟨t, h, exec_ill h⟩

/-- Settles O24: of the four cases of `step_inversion` a write is `portWrite_ill_iff`; the others leave
`ILL` at 0, and their event is no write. -/
theorem illSetExactlyByIllegalWrites : Obligations.IllSetExactlyByIllegalWrites := by
  intro s t hstep hill
  obtain ⟨hp, rfl⟩ | ⟨a, rest, hp, rfl⟩ | ⟨a, v, rest, hp, hw⟩ | ⟨rest, hp, rfl⟩ := step_inversion hstep
  · exact iff_of_false (by simp [hill]) (not_illegalWriteNext (by simp [hp]))
  · exact iff_of_false (by simp [portRead, hill]) (not_illegalWriteNext (by simp [hp]))
  · rw [portWrite_ill_iff hw, illegalWriteNext_iff hp]
    simp [hill]
  · exact iff_of_false (by simp [applyReset, Status.reset]) (not_illegalWriteNext (by simp [hp]))

end Sys2Proof.Machine

/-! Proofs of the reset family: what the one event `Reset` leaves in each register, and what no other event
does to `ILL`. -/

namespace Sys2Proof.Machine

/-! What a step on `Reset` answers (R145 to R147). -/

theorem step_reset {s : State} {rest : List HostEvent} (h : s.pending = .reset :: rest) :
    step s = .next (applyReset { s with pending := rest }) := by
  rw [step_cons h, performEvent_reset]

/-- The flags of a state whose `STATUS` is that of reset, one by one and as the port reads them (R146). -/
theorem flags_of_status_reset {s : State} (h : s.status = Status.reset) :
    s.status.borrow = false ∧ s.status.lte = false ∧ s.status.cmp = 0b00 ∧ s.status.ill = false
      ∧ readValue s 0x47 = 0 := by
  rw [readValue_statusAddr, h]
  decide

/-- `Reset` leaves in each limb of an element register the free word of that limb's place among the 55. -/
theorem applyReset_elem_get (s : State) (r : EReg) (l : Fin 6) :
    ((applyReset s).elem r)[l] = resetWord s (6 * r.val + l.val) (s.elem r)[l] := by
  simp [applyReset, State.elem]

/-- `ILL` is sticky: an event other than `Reset` leaves it set (R24, R146). -/
theorem step_ill_of_not_reset {s t : State} (hstep : step s = .next t) (hreset : ¬ ResetNext s)
    (hill : s.status.ill = true) : t.status.ill = true := by
  obtain ⟨-, o, h⟩ | ⟨-, -, -, b, -, h⟩ | ⟨-, -, b, -, h⟩ | ⟨hr, -⟩ | h | h := step_status hstep
  · rwa [h]
  · rwa [h]
  · rwa [h]
  · exact absurd hr hreset
  · rw [h]
  · rwa [h]

/-! The obligations of the family. -/

/-- Settles O20: the flags by `flags_of_status_reset`, and that no other event clears `ILL` by
`step_ill_of_not_reset`. -/
theorem resetClearsStatus : Obligations.ResetClearsStatus := by
  refine ⟨fun s rest hp => ⟨_, step_reset hp, ?flags⟩, fun s t hstep hset hclear => ?onlyReset⟩
  case flags =>
    obtain ⟨hborrow, hlte, hcmp, hill, hread⟩ :=
      flags_of_status_reset (s := applyReset { s with pending := rest }) rfl
    exact ⟨hborrow, hlte, hcmp, hill, hread, rfl, rfl⟩
  case onlyReset =>
    by_contra hreset
    exact absurd (step_ill_of_not_reset hstep hreset hset) (by simp [hclear])

/-- Settles O12: the first case of `step`. -/
theorem quiescentWithoutEvents : Obligations.QuiescentWithoutEvents := fun _ => step_nil

/-- Settles O21: `State.reset` holds the `STATUS` that `Reset` writes. -/
theorem resetStateStatus : Obligations.ResetStateStatus := flags_of_status_reset rfl

/-- Settles O22: the 48 limbs by `applyReset_elem_get`, the seven scalars as `applyReset` writes them. -/
theorem resetDrawsFreshWords : Obligations.ResetDrawsFreshWords := fun _ _ hp =>
  ⟨_, step_reset hp, rfl, applyReset_elem_get _, rfl, rfl, rfl, rfl, rfl, rfl, rfl⟩

/-- Settles O28: the code at reset is that of equality, which `cmpCode_legal` covers. -/
theorem cmpCodeLegalAtReset : Obligations.CmpCodeLegalAtReset := cmpCode_legal .eq

end Sys2Proof.Machine

/-! Proofs of the command words the specification lists: each is the datum of its command, so the round trip
decodes it. -/

namespace Sys2Proof

/-- A datum that is a command's encoding decodes to that command (R46, R51). -/
theorem decode_of_eq_encodeDatum {v : Limb} {i : Instr} (h : v = encodeDatum i) :
    decode v = .command i := h ▸ Machine.decodeEncodeRoundTrip i

/-- Settles O1: each word is the packing of its row's opcode and operands, as the row's sum computes it. -/
theorem specWordsDecode : Obligations.SpecWordsDecode := by
  refine ⟨?_, ?_, ?_, ?_, ?_, ?_, ?_, ?_, ?_, ?_, ?_⟩ <;>
    exact decode_of_eq_encodeDatum (by decide)

end Sys2Proof
